-- ==== Sys2Proof/Word.lean ====
section
/-! DEFINITION. The two bit-vector types of the machine: a word and a Store address. -/

namespace Sys2Proof

/-- A word: 32 bits, bit 0 the least significant, read as two's complement where a sign is meant (R4, R6). -/
abbrev Word := BitVec 32

/-- The operand field of an instruction: an unsigned word address in 0..31 (R50, R51, R71). -/
abbrev Addr := BitVec 5

end Sys2Proof
end

