-- ==== Sys2Proof/Syntax.lean ====
section
/-! DEFINITION. The eight machine instructions (R73), one constructor per row of spec/opcode_table.json. NUM is no instruction
(R76). The operand is the decoded five-bit field (R71); CMP and STP carry it too, since it is decoded, and never use it
(R78). -/

namespace Sys2Proof

inductive Instr where
  /-- Indirect absolute jump (R120). -/
  | jmp (operand : Addr)
  /-- Indirect relative jump (R121). -/
  | jrp (operand : Addr)
  /-- Load negative (R130). -/
  | ldn (operand : Addr)
  /-- Store the accumulator (R131). -/
  | sto (operand : Addr)
  /-- Subtract memory from the accumulator (R140). -/
  | sub (operand : Addr)
  /-- The duplicate subtract (R75, R141). -/
  | sub2 (operand : Addr)
  /-- Skip the next instruction if the accumulator is negative (R150). -/
  | cmp (operand : Addr)
  /-- Stop (R155). -/
  | stp (operand : Addr)
  deriving DecidableEq, Repr

/-- The operand field of an instruction (R71). -/
def Instr.operand : Instr → Addr
  | .jmp n => n
  | .jrp n => n
  | .ldn n => n
  | .sto n => n
  | .sub n => n
  | .sub2 n => n
  | .cmp n => n
  | .stp n => n

end Sys2Proof
end

