-- ==== Sys2Proof/Decode.lean ====
section
/-! DEFINITION. The decoder (R87), total on every word (R77), and the encoder of the canonical words (R79). There is no
reserved or illegal encoding, so nothing is rejected. -/

namespace Sys2Proof

/-- `operand = w[4:0]` (R71). -/
def operandField (w : Word) : Addr := w.extractLsb' 0 5

/-- `code = w[15:13]` (R72). -/
def opcodeField (w : Word) : BitVec 3 := w.extractLsb' 13 3

/-- `OPCODE_OF`, code 0 first (R73). The pairing of codes and operations is decision D1 (log 1): it stands here once for the
decoder, and once, turned round, in `Instr.code`. -/
def opcodeTable : List (Addr → Instr) :=
  [Instr.jmp, Instr.jrp, Instr.ldn, Instr.sto, Instr.sub, Instr.sub2, Instr.cmp, Instr.stp]

/-- The operation a three-bit code selects. All eight values are bound (R73, R92), so there is no failing case. -/
def opcodeOf (code : BitVec 3) : Addr → Instr :=
  opcodeTable[code.toNat]'(Nat.lt_of_lt_of_eq code.isLt rfl)

/-- `decode(w) = (OPCODE_OF[(w >> 13) AND 7], w AND 0x1F)` (R87). -/
def decode (w : Word) : Instr := opcodeOf (opcodeField w) (operandField w)

/-- The three-bit code of an instruction (R73, D1; log 1). -/
def Instr.code : Instr → BitVec 3
  | .jmp _ => 0
  | .jrp _ => 1
  | .ldn _ => 2
  | .sto _ => 3
  | .sub _ => 4
  | .sub2 _ => 5
  | .cmp _ => 6
  | .stp _ => 7

/-- The word with code `code` in bits 15..13, `operand` in bits 4..0 and every ignored bit 0 (R70, R79). -/
def packFields (code : BitVec 3) (operand : Addr) : Word :=
  (code.setWidth 32 <<< 13) ||| operand.setWidth 32

/-- The canonical word of an instruction: `(code << 13) OR (n AND 0x1F)` (R79). -/
def encode (i : Instr) : Word := packFields i.code i.operand

/-- The instruction the decoder reads from a word given as `nbits` bits with value `w`, bit 0 least significant; bits above
`nbits` are 0. An instruction is one 32-bit word (R70), so more than 32 bits are not one instruction (log 16). -/
def decodeTableWord (nbits w : Nat) : Option Instr :=
  if nbits ≤ 32 then some (decode (BitVec.ofNat 32 (w % 2 ^ nbits))) else none

end Sys2Proof
end

