-- ==== Sys2Proof/Machine/Flags.lean ====
section
/-! DEFINITION. The machine has no flag and no condition code (R25). The one condition any instruction computes is the sign
test of CMP. -/

namespace Sys2Proof.Machine

/-- `isneg(a)`: `a[31]` = 1 (R7, R142 law 5, R150). -/
def isneg (a : Word) : Bool := a.getLsbD 31

end Sys2Proof.Machine
end

