-- ==== Sys2Proof/Machine/Alu.lean ====
section
/-! DEFINITION. The 32-bit arithmetic of R7 and R142: it wraps modulo 2^32 and traps nothing. -/

namespace Sys2Proof.Machine

/-- `neg32(a)`, the source's `wrapping_negate` (R7, R142). -/
def neg32 (a : Word) : Word := -a

/-- `a +32 b`, the source's `wrapping_add` (R7, R142). -/
def add32 (a b : Word) : Word := a + b

/-- `a -32 b` (R7, R142). -/
def sub32 (a b : Word) : Word := a - b

/-- `low5(a)`: the low five bits, zero-extended (R7). -/
def low5 (a : Word) : Word := (a.extractLsb' 0 5).setWidth 32

end Sys2Proof.Machine
end

