-- ==== Sys2Proof/Config.lean ====
section
/-! DEFINITION. The implementation parameters of rule R3 and the two readings of "modulo" that decision D2 names. The spec
leaves no value of this machine open (R8, R29), so there is no free value here. -/

namespace Sys2Proof

/-- `STORE_SIZE`: the number of words of the Store (R3, R22). -/
abbrev Config.storeSize : Nat := 32

/-- `CYCLE_W`: the width of the executed-cycle count (R3, R26, D6; log 6). -/
abbrev Config.cycleWidth : Nat := 32

/-- `PC_MOD` of R3: how `PC +32 1` is reduced modulo the Store's size. `euclid` keeps the low five bits (R101, the spec's
choice); `trunc` is the remainder with the sign of the dividend (D2's alternative). Which of the two the machine uses is
`Sys2Proof.Machine.pcMod`. -/
inductive PcMod where
  | euclid
  | trunc
  deriving DecidableEq, Repr

end Sys2Proof
end

