-- ==== Sys2Proof/Machine/State.lean ====
section
/-! DEFINITION. The state of the core as plain data: the tuple of R28 (`ACC`, `PC`, `Store`, `HALTED`) and the sequencer's
registers `CYCLES`, `HALT_CAUSE`, `FAULT_ADDR` (R26, R27); the reasons a step can stop; the state after reset (R190). -/

namespace Sys2Proof.Machine

/-- The Store as a list of (word address, word) cells: addresses strictly rising and below 32, no cell equal to what an
unlisted address reads as. A cell holds one 32-bit word, the machine's only addressable unit: it has no bytes (R50, R53;
log 15). -/
abbrev Memory := List (Nat × Word)

/-- What an address that no cell lists reads as: after reset every word is 0 (R22, R190; log 15). -/
def Memory.unlisted : Word := 0

/-- A complete 32-word program image, as `load_image` takes it (R31, R196). -/
abbrev Image := Vector Word 32

/-- `HALT_CAUSE` (R27, R175; log 8). Its two-bit codes are given by `HaltCause.code`. -/
inductive HaltCause where
  /-- Code 0: not halted. -/
  | none
  /-- Code 1: halted by STP. -/
  | stop
  /-- Code 2: halted by a decode access fault. -/
  | decodeAccess
  /-- Code 3: halted by an internal invariant violation. -/
  | invariantViolation
  deriving DecidableEq, Repr

/-- The two run-time errors of R160 with the value each records (R175). Raising one is a NEXT state (`State.raise`). -/
inductive RunError where
  /-- R161: the fetch address is not a Store index; `addr` is that value of `PC`. -/
  | decodeAccess (addr : Word)
  /-- R162: a decoded opcode with no operation. -/
  | invariantViolation
  deriving DecidableEq, Repr

structure State where
  /-- `ACC`, the accumulator (R20). -/
  acc : Word
  /-- `PC`, the program counter; any 32-bit value between cycles (R21). -/
  pc : Word
  /-- `Store[0..31]` (R22). -/
  store : Memory
  /-- `HALTED` (R23). -/
  halted : Bool
  /-- `CYCLES`, the cycles of the current run, a natural number (R26, D6; log 6). -/
  cycles : Nat
  /-- `HALT_CAUSE` (R27). -/
  haltCause : HaltCause
  /-- `FAULT_ADDR` (R27). -/
  faultAddr : Word
  deriving DecidableEq, Repr

/-- Why the machine is stuck. -/
inductive Fault where
  /-- Raised by the step of a core with `HALTED` = 1: the sequencer issues it no cycle, a halted core has no step (R105, D7;
  log 7). Safe: no claim about a cycle of a halted core can be proved. -/
  | halted
  deriving DecidableEq, Repr

/-- What the model gives no meaning. -/
inductive Refusal where
  /-- Raised by an arm of `exec` for an instruction without a meaning; no arm of this model raises it. Safe. -/
  | notModelled (mnemonic : String)
  /-- Raised by the step that would make `CYCLES` 2^32: a run of 2^32 cycles or more has no meaning (R26, D6, U13; log 6).
  Safe: no claim about such a run can be proved. -/
  | cycleCountOverflow
  deriving DecidableEq, Repr

/-- The outcome of a step or of an instruction. -/
abbrev Outcome := Host.Outcome State Fault Refusal

/-- The state after reset (R190): every element has the value the spec states. -/
def State.reset : State where
  acc := 0
  pc := 0
  store := []
  halted := false
  cycles := 0
  haltCause := .none
  faultAddr := 0

end Sys2Proof.Machine
end

