-- ==== Sys2Proof/Machine/Ops.lean ====
section
/-! DEFINITION. The named operations over the Store and the registers, the fetch/advance step, halting and raising a run-time
error. There is no return from a halt (R167): only reset leaves it. -/

namespace Sys2Proof.Machine

/-- The reading of `PC_MOD` this machine uses: `euclid` (R3, R101, D2; log 2). -/
def pcMod : PcMod := .euclid

/-! ### The Store -/

/-- The word at an address; an address no cell lists reads as `Memory.unlisted`. -/
def Memory.read : Memory → Nat → Word
  | [], _ => Memory.unlisted
  | (k, v) :: m, a => if k = a then v else Memory.read m a

/-- The Store without a cell for `a`. -/
def Memory.remove (m : Memory) (a : Nat) : Memory := m.filter fun c => c.1 != a

/-- Insert a cell before the first cell of a higher address. -/
def Memory.place : Memory → Nat → Word → Memory
  | [], a, v => [(a, v)]
  | (k, x) :: m, a, v => if a < k then (a, v) :: (k, x) :: m else (k, x) :: Memory.place m a v

/-- Replace the word at `a`, keeping the canonical form: the value an unlisted address reads as is not listed. -/
def Memory.write (m : Memory) (a : Nat) (v : Word) : Memory :=
  if v = Memory.unlisted then m.remove a else (m.remove a).place a v

/-- The canonical form: addresses strictly rising, all inside the Store, no cell that an unlisted address would equal. -/
def Memory.wf (m : Memory) : Bool :=
  decide (m.Pairwise fun c d => c.1 < d.1) && m.all fun c => decide (c.1 < Config.storeSize) && c.2 != Memory.unlisted

/-- The cells of consecutive words from address `a` on. -/
def Memory.ofWords : Nat → List Word → Memory
  | _, [] => []
  | a, w :: ws => if w = Memory.unlisted then Memory.ofWords (a + 1) ws else (a, w) :: Memory.ofWords (a + 1) ws

/-- The Store that holds exactly an image (R196). -/
def Memory.ofImage (img : Image) : Memory := Memory.ofWords 0 img.toList

/-- `MemRead(addr, 1)` (R57). -/
def State.memRead (s : State) (a : Addr) : Word := s.store.read a.toNat

/-- `MemWrite(addr, 1, v)` (R58). -/
def State.memWrite (s : State) (a : Addr) (v : Word) : State := { s with store := s.store.write a.toNat v }

/-- A 32-bit value as a Store index: out of range fails, it never wraps or clamps (R56). -/
def storeIndex (w : Word) : Option Addr := if w.toNat < Config.storeSize then some (w.setWidth 5) else none

/-! ### The registers -/

/-- `ACC <- v`. -/
def State.setAcc (s : State) (v : Word) : State := { s with acc := v }

/-- `PC <- v`, all 32 bits (R21, D19; log 4). -/
def State.setPc (s : State) (v : Word) : State := { s with pc := v }

/-- The sequencer counts one issued cycle (R107). -/
def State.countCycle (s : State) : State := { s with cycles := s.cycles + 1 }

/-- `CYCLES <- 0`, at the start of a run (R106). -/
def State.startRun (s : State) : State := { s with cycles := 0 }

/-! ### Fetch -/

/-- `PC +32 1` reduced modulo the Store's size, under either reading of R101 (D2, D3; logs 2 and 3). -/
def reducePc (m : PcMod) (pc : Word) : Word :=
  match m with
  | .euclid => low5 (add32 pc 1)
  | .trunc => BitVec.ofInt 32 ((add32 pc 1).toInt.tmod 32)

/-- Fetch/advance, the first phase of every cycle (R101). -/
def State.fetchAdvance (s : State) (m : PcMod) : State := s.setPc (reducePc m s.pc)

/-- The instruction word at `PC` (R102), or nothing when `PC` is not a Store index (R56, R103). -/
def State.fetchWord (s : State) : Option Word := (storeIndex s.pc).map s.memRead

/-! ### Halting -/

/-- The two-bit code of `HALT_CAUSE` that the host reads (R27, R175). -/
def HaltCause.code : HaltCause → BitVec 2
  | .none => 0
  | .stop => 1
  | .decodeAccess => 2
  | .invariantViolation => 3

/-- The cause a run-time error records (R175). -/
def RunError.cause : RunError → HaltCause
  | .decodeAccess _ => .decodeAccess
  | .invariantViolation => .invariantViolation

/-- `FAULT_ADDR <- info` when the error carries an address, else unchanged (R175). -/
def RunError.record : RunError → Word → Word
  | .decodeAccess addr, _ => addr
  | .invariantViolation, old => old

/-- `raise <Fault>(info)` (R7, R175): taking a run-time error. Nothing is saved, there is no vector (R166). -/
def State.raise (s : State) (e : RunError) : State :=
  { s with halted := true, haltCause := e.cause, faultAddr := e.record s.faultAddr }

/-- The halt by STP: `HALTED <- 1; HALT_CAUSE <- 1` (R155). -/
def State.halt (s : State) : State := { s with halted := true, haltCause := .stop }

end Sys2Proof.Machine
end

