-- ==== Sys2Proof/Machine/Operands.lean ====
section
/-! DEFINITION. The one operand form of the machine: direct, the operand field is the address of a Store word (R71, 42's
opening text). There is no immediate, no register operand and no other addressing mode. -/

namespace Sys2Proof.Machine

/-- The effective address of an operand: the field itself, neither scaled nor extended (R51, R71). -/
def effectiveAddress (operand : Addr) : Addr := operand

/-- The word a direct operand names. -/
def State.operandWord (s : State) (operand : Addr) : Word := s.memRead (effectiveAddress operand)

/-- Replace the word a direct operand names. -/
def State.storeOperand (s : State) (operand : Addr) (v : Word) : State := s.memWrite (effectiveAddress operand) v

end Sys2Proof.Machine
end

