-- ==== Sys2Proof/Machine/Compare.lean ====
section
/-! DEFINITION. CMP (R150). -/

namespace Sys2Proof.Machine

/-- CMP: `if ACC[31] = 1 then PC <- PC +32 1`, not reduced in this cycle (R150, D3, D19; logs 3 and 4). The operand field is
ignored and no memory word is read (R78). -/
def execCmp (_operand : Addr) (s : State) : Outcome :=
  .next (if isneg s.acc then s.setPc (add32 s.pc 1) else s)

end Sys2Proof.Machine
end

