-- ==== Sys2Proof/Machine/Jump.lean ====
section
/-! DEFINITION. JMP and JRP (R120, R121). `PC` is the address of the instruction itself: fetch/advance has been done. -/

namespace Sys2Proof.Machine

/-- JMP: `PC <- MemRead(operand, 1)`, all 32 bits (R120, D19; log 4). -/
def execJmp (operand : Addr) (s : State) : Outcome := .next (s.setPc (s.operandWord operand))

/-- JRP: `PC <- PC +32 MemRead(operand, 1)`, all 32 bits (R121, D3, D19; logs 3 and 4). -/
def execJrp (operand : Addr) (s : State) : Outcome := .next (s.setPc (add32 s.pc (s.operandWord operand)))

end Sys2Proof.Machine
end

