-- ==== Sys2Proof/Machine/LoadStore.lean ====
section
/-! DEFINITION. LDN and STO (R130, R131). -/

namespace Sys2Proof.Machine

/-- LDN: `ACC <- neg32(MemRead(operand, 1))` (R130). -/
def execLdn (operand : Addr) (s : State) : Outcome := .next (s.setAcc (neg32 (s.operandWord operand)))

/-- STO: `MemWrite(operand, 1, ACC)` (R131). -/
def execSto (operand : Addr) (s : State) : Outcome := .next (s.storeOperand operand s.acc)

end Sys2Proof.Machine
end

