-- ==== Sys2Proof/Machine/Stop.lean ====
section
/-! DEFINITION. STP (R155). -/

namespace Sys2Proof.Machine

/-- STP: `HALTED <- 1; HALT_CAUSE <- 1`, "No further state change" (R155). The operand field is ignored (R78). -/
def execStp (_operand : Addr) (s : State) : Outcome := .next s.halt

end Sys2Proof.Machine
end

