-- ==== Sys2Proof/Machine/Subtract.lean ====
section
/-! DEFINITION. SUB and SUB2 (R140, R141). -/

namespace Sys2Proof.Machine

/-- `ACC <- ACC -32 MemRead(operand, 1)`, the operation of both codes (R140, R142 law 3). -/
def State.subtractOperand (s : State) (operand : Addr) : State := s.setAcc (sub32 s.acc (s.operandWord operand))

/-- SUB (R140). -/
def execSub (operand : Addr) (s : State) : Outcome := .next (s.subtractOperand operand)

/-- SUB2, "identical execution semantics" (R75, R141). -/
def execSub2 (operand : Addr) (s : State) : Outcome := .next (s.subtractOperand operand)

end Sys2Proof.Machine
end

