-- ==== Sys2Proof/Machine/Dispatch.lean ====
section
/-! DEFINITION. The execute phase (R104): one arm per instruction. -/

namespace Sys2Proof.Machine

def exec (i : Instr) (s : State) : Host.Outcome State Fault Refusal :=
  match i with
  | .jmp n => Sys2Proof.Machine.execJmp n s
  | .jrp n => Sys2Proof.Machine.execJrp n s
  | .ldn n => Sys2Proof.Machine.execLdn n s
  | .sto n => Sys2Proof.Machine.execSto n s
  | .sub n => Sys2Proof.Machine.execSub n s
  | .sub2 n => Sys2Proof.Machine.execSub2 n s
  | .cmp n => Sys2Proof.Machine.execCmp n s
  | .stp n => Sys2Proof.Machine.execStp n s

end Sys2Proof.Machine
end

