-- ==== Sys2Proof/Machine/Cycle.lean ====
section
/-! DEFINITION. One cycle: fetch/advance, decode, execute (R100 to R104, R111), and the sequencer issuing it (R105, R107). -/

namespace Sys2Proof.Machine

/-- The decode and execute phases, at the `PC` fetch/advance left (R102, R104). A fetch address outside the Store raises
DecodeAccessFault and nothing is executed (R103, R161). -/
def decodeExecute (s : State) : Outcome :=
  match s.fetchWord with
  | some w => exec (decode w) s
  | none => .next (s.raise (.decodeAccess s.pc))

/-- The cycle (R100, R111) of a core with `HALTED` = 0, under either reading of `PC_MOD` (D2; log 2). -/
def cycle (m : PcMod) (s : State) : Outcome := decodeExecute (s.fetchAdvance m)

/-- The sequencer issues one cycle and counts it: none while `HALTED` = 1 (R105, D7; log 7), none that would make the count
2^32 (D6; log 6). -/
def issueCycle (m : PcMod) (s : State) : Outcome :=
  if s.halted then .fault .halted
  else if s.cycles + 1 < 2 ^ Config.cycleWidth then
    match cycle m s with
    | .next t => .next t.countCycle
    | .fault r => .fault r
    | .refused r => .refused r
  else .refused .cycleCountOverflow

end Sys2Proof.Machine
end

