-- ==== Sys2Proof/Machine/Step.lean ====
section
/-! DEFINITION. The step of the machine: one cycle issued by the sequencer ("cycle", "step" and "instruction_cycle" are
synonyms, R9). -/

namespace Sys2Proof.Machine

def step (s : State) : Host.Outcome State Fault Refusal := issueCycle pcMod s

/-- `s` with an instruction word stored where `step` fetches its next instruction: the address fetch/advance will give
(R101). The program itself comes from the host's `load_image` (log 16); a halted `s` stays halted and has no step. -/
def State.withFetchWord (s : State) (nbits w : Nat) : State :=
  { s with store := s.store.write (reducePc pcMod s.pc).toNat (BitVec.ofNat 32 (w % 2 ^ nbits)) }

end Sys2Proof.Machine
end

