-- ==== Sys2Proof/Machine/Text.lean ====
section
/-! DEFINITION. The notation of words and instructions as text: the historical bit string (R5, R86), the mnemonics (R81) and
disassembly (R89). Text is a list of characters. -/

namespace Sys2Proof.Machine

abbrev Text := List Char

/-- `hist(w)`: 32 characters, character i is bit i (R5, C3, C4). -/
def hist (w : Word) : Text := (List.range 32).map fun i => if w.getLsbD i then '1' else '0'

/-- The number a `0`/`1` string denotes when its first character is bit 0. -/
def bitsValue : Text → Nat
  | [] => 0
  | c :: cs => (if c = '1' then 1 else 0) + 2 * bitsValue cs

/-- Whether a character is `0` or `1`. -/
def isBit (c : Char) : Bool := c == '0' || c == '1'

/-- `unhist(s)`, of a string of exactly 32 characters `0`/`1` (R5, R85). -/
def unhist (s : Text) : Option Word :=
  if s.length = 32 ∧ s.all isBit then some (BitVec.ofNat 32 (bitsValue s)) else none

/-- What a mnemonic of the assembler names: a machine operation by its code (R73) or the pseudo-instruction NUM (R83). -/
inductive AsmOp where
  | machine (code : BitVec 3)
  | num
  deriving DecidableEq, Repr

/-- The nine mnemonics (R81), the eight machine operations in the order of their codes. -/
def mnemonicTable : List (Text × AsmOp) :=
  [("JMP".toList, .machine 0), ("JRP".toList, .machine 1), ("LDN".toList, .machine 2), ("STO".toList, .machine 3),
   ("SUB".toList, .machine 4), ("SUB2".toList, .machine 5), ("CMP".toList, .machine 6), ("STP".toList, .machine 7),
   ("NUM".toList, .num)]

/-- `Opcode.parse`: case-sensitive exact match (R81). -/
def parseMnemonic (t : Text) : Option AsmOp := mnemonicTable.lookup t

/-- The mnemonic of an instruction; SUB2 is distinct from SUB (R89). -/
def mnemonicOf : Instr → Text
  | .jmp _ => "JMP".toList
  | .jrp _ => "JRP".toList
  | .ldn _ => "LDN".toList
  | .sto _ => "STO".toList
  | .sub _ => "SUB".toList
  | .sub2 _ => "SUB2".toList
  | .cmp _ => "CMP".toList
  | .stp _ => "STP".toList

/-- A natural number in decimal. -/
def decimal (n : Nat) : Text := Nat.toDigits 10 n

/-- Disassembly: the mnemonic of `w[15:13]` followed by `w[4:0]` in decimal (R89). -/
def disassemble (w : Word) : Text := mnemonicOf (decode w) ++ ' ' :: decimal (operandField w).toNat

end Sys2Proof.Machine
end

