-- ==== Sys2Proof/WellFormed.lean ====
section
/-! DEFINITION. What is checked before anything is run: an instruction's operand is a Store address (R51), and the line
indices of a program text are 0, 1, ..., k with k at most 31 (R84). -/

namespace Sys2Proof

/-- STO's "operand must be < 32" (R51). The five-bit field guarantees it, so no term of `Instr` fails the check. -/
def Instr.wf (i : Instr) : Bool := decide (i.operand.toNat < Config.storeSize)

/-- The index language of both program formats: exactly 0, 1, ..., k in this order, for some k <= 31 (R84, D13; log 20). -/
def indicesWf (indices : List Nat) : Bool :=
  indices != [] && decide (indices.length ≤ Config.storeSize) && indices == List.range indices.length

end Sys2Proof
end

