-- ==== Sys2Proof/Machine/Loader.lean ====
section
/-! DEFINITION. The two program formats that give `load_image` its 32 words: assembly (R80 to R84, R88) and snapshot (R85). A
load gives a whole image or fails (R90, R196). It is notation, not hardware (00 section 3). -/

namespace Sys2Proof.Machine

/-- The load-time errors of R90; those that R90 does not list are named in log 21. -/
inductive LoadError where
  | nonIntegerIndex
  | indexOutOfRange
  /-- R84: names the index that was expected. -/
  | nonContiguousIndex (expected : Nat)
  | unknownMnemonic
  /-- The line has not the form R80 or R85 gives (log 21). -/
  | malformedLine
  /-- R85: names the actual length, 32 being expected. -/
  | wrongLength (actual : Nat)
  | unparseableBinary
  /-- No line at all: the indices are not 0, ..., k for any k (R84, D13; log 20). -/
  | noLine
  deriving DecidableEq, Repr

/-- What one line gives. -/
inductive LineResult where
  /-- A blank or comment line: skipped "without incrementing any counter" (R80). -/
  | skip
  | word (w : Word)
  | bad (e : LoadError)
  deriving DecidableEq, Repr

/-- How the two spellings that N12 leaves open are read: a leading `+` on an integer, and white space around a snapshot's
index and colon other than R85's (DESIGN CHOICE; log 21). However a loader reads these two spellings, it accepts what `narrow`
accepts and nothing that `wide` does not. -/
inductive Reading where
  /-- Neither is accepted. -/
  | narrow
  /-- Both are accepted. -/
  | wide
  deriving DecidableEq, Repr

/-- What a text gives. -/
inductive Loaded (α : Type) where
  | image (img : α)
  /-- The text is fatal under every reading. The offending line comes with its contents (R81, R84, R85). -/
  | failed (e : LoadError) (line : Text)
  /-- Whether the text loads depends on a spelling the source is silent about (N12; log 21). -/
  | unspecified
  deriving DecidableEq, Repr

/-! ### Characters, tokens, numbers -/

/-- White space inside a line (log 21). -/
def isBlank (c : Char) : Bool := c == ' ' || c == '\t' || c == '\r'

/-- The parts of a text between the characters that satisfy `p`. -/
def splitText (p : Char → Bool) : Text → List Text
  | [] => [[]]
  | c :: cs =>
    match splitText p cs with
    | [] => [[]]
    | part :: parts => if p c then [] :: part :: parts else (c :: part) :: parts

/-- Newline-delimited lines (R80). -/
def lines (src : Text) : List Text := splitText (· == '\n') src

/-- `;` begins a comment extending to the end of the line (R80). -/
def stripComment (line : Text) : Text := line.takeWhile (· != ';')

/-- White-space-separated tokens (R80). -/
def tokens (line : Text) : List Text := (splitText isBlank line).filter (· != [])

/-- The value of a decimal digit. -/
def digitValue (c : Char) : Option Nat := if '0' ≤ c ∧ c ≤ '9' then some (c.toNat - '0'.toNat) else none

/-- The value of a string of decimal digits after the value `acc` of the digits before it. -/
def digitsValue : Nat → Text → Option Nat
  | acc, [] => some acc
  | acc, c :: cs =>
    match digitValue c with
    | some d => digitsValue (10 * acc + d) cs
    | none => none

/-- An unsigned decimal integer (R80). -/
def parseNat (t : Text) : Option Nat := if t = [] then none else digitsValue 0 t

/-- A signed decimal 32-bit integer (R80). -/
def parseInt32 (t : Text) : Option Int :=
  match t with
  | '-' :: ds => (parseNat ds).bind fun n => if n ≤ 2 ^ 31 then some (-(n : Int)) else none
  | ds => (parseNat ds).bind fun n => if n < 2 ^ 31 then some (n : Int) else none

/-- An unsigned integer as a reading spells it: `wide` allows one leading `+` (N12; log 21). -/
def readNat : Reading → Text → Option Nat
  | .wide, '+' :: ds => parseNat ds
  | _, t => parseNat t

/-- A signed integer as a reading spells it: `wide` allows one leading `+`, with no other sign after it (N12; log 21). -/
def readInt32 : Reading → Text → Option Int
  | .wide, '+' :: ds => if ds.head? = some '-' then none else parseInt32 ds
  | _, t => parseInt32 t

/-! ### Lines -/

/-- The index rules of both formats: an integer, below 32, and the next one in order (R84). That an integer of 256 or more
is `indexOutOfRange` and a negative one `nonIntegerIndex` is a DESIGN CHOICE: R80's `u8` would make the first a parse failure
too (log 24). The order of the three checks is log 22's. -/
def checkIndex (r : Reading) (expected : Nat) (t : Text) : Option LoadError :=
  match readNat r t with
  | none => some .nonIntegerIndex
  | some i =>
    if Config.storeSize ≤ i then some .indexOutOfRange
    else if i ≠ expected then some (.nonContiguousIndex expected)
    else none

/-- `ASM_OPERAND_MASK` (R3, R82, D11; log 18). -/
def asmOperandMask : Word := 0x1F

/-- The image word of a mnemonic and its operand: `(code << 13) OR (n AND mask)` (R82), or `n` itself for NUM (R83). -/
def asmWord : AsmOp → Int → Word
  | .machine code, n => (code.setWidth 32 <<< 13) ||| (BitVec.ofInt 32 n &&& asmOperandMask)
  | .num, n => BitVec.ofInt 32 n

/-- What follows the index of an assembly line: `<MNEMONIC> [<operand>]`, the operand 0 if omitted (R80 to R83). -/
def asmStatement (r : Reading) : List Text → LineResult
  | [] => .bad .malformedLine
  | m :: operands =>
    match parseMnemonic m with
    | none => .bad .unknownMnemonic
    | some op =>
      match operands with
      | [] => .word (asmWord op 0)
      | [t] =>
        match readInt32 r t with
        | some n => .word (asmWord op n)
        | none => .bad .malformedLine
      | _ => .bad .malformedLine

/-- One line of assembly, `<index> <MNEMONIC> [<operand>]` (R80). -/
def asmLine (r : Reading) (expected : Nat) (line : Text) : LineResult :=
  match tokens (stripComment line) with
  | [] => .skip
  | idx :: rest =>
    match checkIndex r expected idx with
    | some e => .bad e
    | none => asmStatement r rest

/-- A text without the white space at its end. That white space at the end of a snapshot's bit string, before a comment or
at the end of the line, is dropped before the length is checked is a DESIGN CHOICE: R85's form shows one space before a
comment and none at the end of a line (log 23). -/
def dropTrailingBlanks (t : Text) : Text := (t.reverse.dropWhile isBlank).reverse

/-- A text without the white space at its ends. -/
def trimBlanks (t : Text) : Text := dropTrailingBlanks (t.dropWhile isBlank)

/-- The parts of a text before and after its first colon. -/
def splitColon : Text → Option (Text × Text)
  | [] => none
  | c :: cs => if c = ':' then some ([], cs) else (splitColon cs).map fun p => (c :: p.1, p.2)

/-- The index of a snapshot line, of the text before the colon (R85; log 21). -/
def snapshotIndex : Reading → Text → Text
  | .narrow, t => t
  | .wide, t => trimBlanks t

/-- The bit string of a snapshot line, of the text after the colon: `narrow` wants R85's one space before it (log 21). -/
def snapshotBits : Reading → Text → Option Text
  | .narrow, ' ' :: rest => some (dropTrailingBlanks rest)
  | .narrow, _ => none
  | .wide, t => some (trimBlanks t)

/-- The word of a bit string: exactly 32 characters of `0`/`1`, anything else is fatal (R85). -/
def snapshotWord (bits : Text) : LineResult :=
  if bits.length ≠ 32 then .bad (.wrongLength bits.length)
  else match unhist bits with
    | some w => .word w
    | none => .bad .unparseableBinary

/-- One line of a snapshot, `<index>: <32-character binary string>[ ; comment]` (R85). -/
def snapshotLine (r : Reading) (expected : Nat) (line : Text) : LineResult :=
  if tokens (stripComment line) = [] then .skip
  else match splitColon (stripComment line) with
    | none => .bad .malformedLine
    | some (idx, rest) =>
      match checkIndex r expected (snapshotIndex r idx) with
      | some e => .bad e
      | none =>
        match snapshotBits r rest with
        | none => .bad .malformedLine
        | some bits => snapshotWord bits

/-! ### Whole texts -/

/-- The words of the lines from the one whose index must be `expected` on; the first offending line ends the load (R84). -/
def loadLines (parse : Nat → Text → LineResult) : Nat → List Text → Except (LoadError × Text) (List Word)
  | _, [] => .ok []
  | expected, l :: ls =>
    match parse expected l with
    | .skip => loadLines parse expected ls
    | .bad e => .error (e, l)
    | .word w => (loadLines parse (expected + 1) ls).map (w :: ·)

/-- The image of the words 0, ..., k; the words no line names are 0 (R88, D12; log 19). -/
def padImage (ws : List Word) : Image := Vector.ofFn fun i => ws.getD i.val 0

/-- Load a text with one way of reading its lines: a whole image or nothing (R90, R196). -/
def loadAs (parse : Nat → Text → LineResult) (src : Text) : Except (LoadError × Text) Image :=
  match loadLines parse 0 (lines src) with
  | .ok [] => .error (.noLine, [])
  | .ok (w :: ws) => .ok (padImage (w :: ws))
  | .error e => .error e

/-- Load a text in one of the two formats. It fails where even the wide reading fails, for then every reading does (with the
wide reading's error; log 22); it loads where the two readings give the same image. -/
def loadText (parse : Reading → Nat → Text → LineResult) (src : Text) : Loaded Image :=
  match loadAs (parse .wide) src with
  | .error (e, l) => .failed e l
  | .ok img => if loadAs (parse .narrow) src = .ok img then .image img else .unspecified

/-- The assembly format (R80 to R84, R88). -/
def loadAssembly (src : Text) : Loaded Image := loadText asmLine src

/-- The snapshot format (R84, R85, R88). -/
def loadSnapshot (src : Text) : Loaded Image := loadText snapshotLine src

end Sys2Proof.Machine
end

