-- ==== Sys2Proof/Machine/Sequencer.lean ====
section
/-! DEFINITION. The run control: `run(BOUNDED, MAX_CYCLES)` (R106 to R110). The budget is a pair of host inputs held constant
during a run, not state (R26, R28; log 9). -/

namespace Sys2Proof.Machine

/-- The host inputs `BOUNDED` (1 bit) and `MAX_CYCLES` (32 bits, unsigned) of R26 (D5; log 9). -/
structure Budget where
  bounded : Bool
  maxCycles : Word
  deriving DecidableEq, Repr

/-- The predicate of R106's loop: `HALTED = 0 and (BOUNDED = 0 or CYCLES < MAX_CYCLES)`. -/
def runContinues (b : Budget) (s : State) : Bool :=
  !s.halted && (!b.bounded || decide (s.cycles < b.maxCycles.toNat))

/-- What a watcher sees of a run after waiting for a number of cycles. -/
inductive RunResult where
  /-- The run has ended in this state; the count it returns is `CYCLES` there (R108). -/
  | ended (s : State)
  /-- The run goes on: the watcher's patience, not the machine, is at its end (R202; log 17). -/
  | unfinished (s : State)
  /-- A step was stuck; the loop issues no cycle to a halted core, so this does not happen. -/
  | stuck (r : Fault)
  /-- A cycle was given no meaning (the count would be 2^32, D6; log 6). -/
  | refused (r : Refusal)
  deriving DecidableEq, Repr

/-- The `while` loop of R106, watched for at most `patience` cycles. The test stands before each cycle. -/
def runLoop (b : Budget) : Nat → State → RunResult
  | 0, s => if runContinues b s then .unfinished s else .ended s
  | patience + 1, s =>
    if runContinues b s then
      match step s with
      | .next t => runLoop b patience t
      | .fault r => .stuck r
      | .refused r => .refused r
    else .ended s

/-- `run(BOUNDED, MAX_CYCLES)`: `CYCLES <- 0`, then the loop (R106). -/
def run (b : Budget) (patience : Nat) (s : State) : RunResult := runLoop b patience s.startRun

/-- A bounded run, watched for as many cycles as its budget allows, which is always to its end (R202). -/
def runBounded (maxCycles : Word) (s : State) : RunResult := run ⟨true, maxCycles⟩ maxCycles.toNat s

end Sys2Proof.Machine
end

