-- ==== Sys2Proof/Machine/HostOps.lean ====
section
/-! DEFINITION. The host interface of R31. Every operation acts on a state between runs: no move of the host exists while a
run is in progress (R203, D10; log 12). -/

namespace Sys2Proof.Machine

/-- The operations of R31. `run` carries how many cycles the host is watched waiting for its end (log 17). -/
inductive HostOp where
  | reset
  | loadImage (img : Image)
  | poke (addr : Nat) (v : Word)
  | peek (addr : Nat)
  | run (budget : Budget) (patience : Nat)
  | readAcc
  | readPc
  | readHalted
  | readCycles
  | readHaltCause
  | readFaultAddr
  deriving DecidableEq, Repr

/-- What an operation gives back. -/
inductive HostReply where
  | done
  | word (w : Word)
  | flag (b : Bool)
  | count (n : Nat)
  | cause (code : BitVec 2)
  /-- `peek` or `poke` with an address of 32 or more: no access, no state change (R56, D15; log 13). -/
  | refused
  deriving DecidableEq, Repr

/-- `load_image(img)`: all 32 words at once (R31, R196). -/
def State.loadImage (s : State) (img : Image) : State := { s with store := Memory.ofImage img }

/-- `poke(addr, v)` (R31, R56). -/
def State.poke (s : State) (addr : Nat) (v : Word) : HostReply × State :=
  if addr < Config.storeSize then (.done, s.memWrite (BitVec.ofNat 5 addr) v) else (.refused, s)

/-- `peek(addr)` (R31, R56). -/
def State.peek (s : State) (addr : Nat) : HostReply × State :=
  if addr < Config.storeSize then (.word (s.memRead (BitVec.ofNat 5 addr)), s) else (.refused, s)

/-- One host operation: its reply and the state it leaves, or nothing while a run it started has not ended (then the
sequencer is not idle and the host can do no further operation). -/
def hostStep (op : HostOp) (s : State) : Option (HostReply × State) :=
  match op with
  | .reset => some (.done, State.reset)
  | .loadImage img => some (.done, s.loadImage img)
  | .poke addr v => some (s.poke addr v)
  | .peek addr => some (s.peek addr)
  | .run b patience =>
    match Sys2Proof.Machine.run b patience s with
    | .ended t => some (.count t.cycles, t)
    | .unfinished _ => none
    | .stuck _ => none
    | .refused _ => none
  | .readAcc => some (.word s.acc, s)
  | .readPc => some (.word s.pc, s)
  | .readHalted => some (.flag s.halted, s)
  | .readCycles => some (.count s.cycles, s)
  | .readHaltCause => some (.cause s.haltCause.code, s)
  | .readFaultAddr => some (.word s.faultAddr, s)

/-- A sequence of host operations: their replies in order and the state they leave (R193). -/
def hostSession : List HostOp → State → Option (List HostReply × State)
  | [], s => some ([], s)
  | op :: ops, s =>
    match hostStep op s with
    | some (r, t) => (hostSession ops t).map fun (rs, u) => (r :: rs, u)
    | none => none

end Sys2Proof.Machine
end

