-- ==== Sys2Proof/Machine/Reference.lean ====
section
/-! DEFINITION. Rule R111's pseudocode of a whole cycle, written a second time and on its own: over a plain array of 32 words
and with Nat arithmetic, using nothing of the decoder, the operations or the meanings. Claims compare the model with it. -/

namespace Sys2Proof.Machine

/-- The variables of R111: `ACC`, `PC`, `Store`, `HALTED`, and the number in `HALT_CAUSE`. -/
structure RefState where
  acc : Word
  pc : Word
  store : Image
  halted : Bool
  haltCause : Nat
  deriving DecidableEq, Repr

/-- The word at an index of an array, the index taken modulo 32. -/
def refWord (img : Image) (k : Nat) : Word := img[k % 32]'(Nat.mod_lt _ (by decide))

/-- The array with one word replaced. -/
def refSet (img : Image) (k : Nat) (v : Word) : Image := Vector.ofFn fun i => if i.val = k then v else img[i]

/-- R111's `case code of`: `p` is the address of the instruction, `operand` its operand, `m` the word there. -/
def refExecute (s : RefState) (p operand m : Nat) : Nat → RefState
  | 0 => { s with pc := BitVec.ofNat 32 m }
  | 1 => { s with pc := BitVec.ofNat 32 (p + m) }
  | 2 => { s with acc := BitVec.ofNat 32 (2 ^ 32 - m) }
  | 3 => { s with store := refSet s.store operand s.acc }
  | 4 => { s with acc := BitVec.ofNat 32 (s.acc.toNat + 2 ^ 32 - m) }
  | 5 => { s with acc := BitVec.ofNat 32 (s.acc.toNat + 2 ^ 32 - m) }
  | 6 => { s with pc := BitVec.ofNat 32 (if 2 ^ 31 ≤ s.acc.toNat then p + 1 else p) }
  | _ => { s with halted := true, haltCause := 1 }

/-- R111, line by line: advance `PC`, read the word, take its fields, execute. -/
def refCycle (s : RefState) : RefState :=
  let p := (s.pc.toNat + 1) % 2 ^ 32 % 32
  let w := (refWord s.store p).toNat
  let operand := w % 32
  let code := w / 2 ^ 13 % 8
  refExecute { s with pc := BitVec.ofNat 32 p } p operand (refWord s.store operand).toNat code

/-- What R111's variables hold in a state of the model. -/
def State.toRef (s : State) : RefState where
  acc := s.acc
  pc := s.pc
  store := Vector.ofFn fun i => s.store.read i.val
  halted := s.halted
  haltCause := s.haltCause.code.toNat

end Sys2Proof.Machine
end

