-- ==== Sys2Proof/Safety.lean ====
section
/-! DEFINITION. What claims call a good state and a clean stop, in the terms of the spec's own invariants. -/

namespace Sys2Proof.Machine

/-- The invariant of the whole state: the Store is in canonical form; `HALTED` = 1 if and only if `HALT_CAUSE` /= 0, and
`FAULT_ADDR` is 0 unless the cause is a decode access fault (R27); `CYCLES` is below 2^32 (R26). -/
structure State.Inv (s : State) : Prop where
  storeWf : s.store.wf = true
  haltedIffCause : s.halted = true ↔ s.haltCause ≠ .none
  faultAddrOfCause : s.haltCause ≠ .decodeAccess → s.faultAddr = 0
  cyclesFit : s.cycles < 2 ^ Config.cycleWidth

/-- No run-time error has been raised: the reachable causes under `PC_MOD` = `euclid` (R175). -/
def State.noRunError (s : State) : Prop := s.haltCause = .none ∨ s.haltCause = .stop

/-- "Ran to completion": halted by STP, not by a run-time error (R177). -/
def State.ranToCompletion (s : State) : Prop := s.haltCause = .stop

/-- The architectural state agrees: equality of two core states (R28, R32), every word of the Store compared. -/
def State.sameArchitecture (s t : State) : Prop :=
  s.acc = t.acc ∧ s.pc = t.pc ∧ s.halted = t.halted ∧ ∀ a : Addr, s.memRead a = t.memRead a

/-- Every word of the Store is the same in both states. -/
def State.sameStore (s t : State) : Prop := ∀ a, t.store.read a = s.store.read a

/-- The halted flag and the status registers are the same in both states. -/
def State.sameStatus (s t : State) : Prop :=
  t.halted = s.halted ∧ t.haltCause = s.haltCause ∧ t.faultAddr = s.faultAddr ∧ t.cycles = s.cycles

/-- The address fetch/advance gives the next cycle, `low5(PC +32 1)` (R112). -/
def State.nextFetch (s : State) : Addr := (s.pc + 1).setWidth 5

/-- The instruction the next cycle executes (R101, R102). -/
def State.nextInstr (s : State) : Instr := decode (s.memRead s.nextFetch)

/-- The state in which it executes: `PC` is its own address. -/
def State.atFetch (s : State) : State := s.setPc (s.nextFetch.setWidth 32)

end Sys2Proof.Machine
end

