-- ==== Sys2Proof/Certificates/Slice0/Obligations.lean ====
section
/-! DEFINITION. The statements for the provers. Each docstring names the rule or the section of spec/ it formalises, and the
log entry of every choice it rests on. -/

open Sys2Proof Sys2Proof.Machine

/-! ### Encoding -/

/-- R71, R72: the operand is `w AND 0x1F` and is used directly as a word address; the code is `(w >> 13) AND 7`, whether the
shift is logical or arithmetic. -/
def Obligations.DecodedFieldsAreTheMaskedBits : Prop :=
  ∀ (w : Word) (s : State),
    (decode w).operand.setWidth 32 = w &&& 0x0000001F ∧
    s.operandWord (decode w).operand = s.store.read (w &&& 0x0000001F).toNat ∧
    (decode w).code.setWidth 32 = (w >>> 13) &&& 0x7 ∧
    (decode w).code.setWidth 32 = (w.sshiftRight 13) &&& 0x7

/-- R73's table with R77's totality: every word is exactly the instruction its bits 15..13 select. The pairing of codes and
operations is the spec's decision D1 (log 1). -/
def Obligations.OpcodeMapBindsAllEightCodes : Prop :=
  ∀ w : Word,
    (w &&& 0x0000E000 = 0x00000000 → decode w = .jmp (w.setWidth 5)) ∧
    (w &&& 0x0000E000 = 0x00002000 → decode w = .jrp (w.setWidth 5)) ∧
    (w &&& 0x0000E000 = 0x00004000 → decode w = .ldn (w.setWidth 5)) ∧
    (w &&& 0x0000E000 = 0x00006000 → decode w = .sto (w.setWidth 5)) ∧
    (w &&& 0x0000E000 = 0x00008000 → decode w = .sub (w.setWidth 5)) ∧
    (w &&& 0x0000E000 = 0x0000A000 → decode w = .sub2 (w.setWidth 5)) ∧
    (w &&& 0x0000E000 = 0x0000C000 → decode w = .cmp (w.setWidth 5)) ∧
    (w &&& 0x0000E000 = 0x0000E000 → decode w = .stp (w.setWidth 5)) ∧
    (w &&& 0x0000E000 = 0x00000000 ∨ w &&& 0x0000E000 = 0x00002000 ∨ w &&& 0x0000E000 = 0x00004000 ∨
     w &&& 0x0000E000 = 0x00006000 ∨ w &&& 0x0000E000 = 0x00008000 ∨ w &&& 0x0000E000 = 0x0000A000 ∨
     w &&& 0x0000E000 = 0x0000C000 ∨ w &&& 0x0000E000 = 0x0000E000)

/-- A sanity check: one printed word of 95 group E per family. The codes rest on D1 (log 1). -/
def Obligations.PrintedWordsDecodeAsPrinted : Prop :=
  decode 0x00000016 = .jmp 22 ∧ decode 0x0000201C = .jrp 28 ∧ decode 0xFFFF5FF8 = .ldn 24 ∧
  decode 0x0000600C = .sto 12 ∧ decode 0x0000800B = .sub 11 ∧ decode 0xDEADBEEF = .sub2 15 ∧
  decode 0x0000C01F = .cmp 31 ∧ decode 0xFFFFFFFF = .stp 31

/-- R79: the canonical word of an instruction is `code * 2^13 + operand`. -/
def Obligations.EncodedWordIsCodeAndOperand : Prop :=
  ∀ i : Instr, (encode i).toNat = i.code.toNat * 2 ^ 13 + i.operand.toNat

/-- Decoding an encoded instruction gives it back, whatever its operand; every instruction is well-formed (R51). -/
def Obligations.DecodeOfEncodeIsTheInstruction : Prop :=
  ∀ i : Instr, i.wf = true → decode (encode i) = i

/-- The other direction: decoding a word and encoding the result loses the ignored bits (R74) and no other bit. -/
def Obligations.EncodeOfDecodeClearsOnlyIgnoredBits : Prop :=
  ∀ w : Word, encode (decode w) = w &&& 0x0000E01F

/-- R74: words that agree in bits 4..0 and 15..13, and only those, are the same instruction; the ignored bits are stored,
negated and subtracted like any other bits; the assembler writes them as 0 (R82), whatever the operand, which rests on the
mask of decision D11 (log 18). -/
def Obligations.IgnoredBitsChangeNoInstructionButAreData : Prop :=
  (∀ w w' : Word, (w &&& 0x1F = w' &&& 0x1F ∧ w &&& 0xE000 = w' &&& 0xE000) ↔ decode w = decode w') ∧
  (∀ (s : State) (n : Addr), ∃ t u v, exec (.sto n) s = .next t ∧ exec (.ldn n) t = .next u ∧
    exec (.sub n) t = .next v ∧ t.memRead n = s.acc ∧ u.acc = neg32 s.acc ∧ v.acc = 0) ∧
  (∀ (code : BitVec 3) (n : Int), asmWord (.machine code) n &&& 0xFFFF1FE0 = 0)

/-- R78: all 32 operand values of CMP, and all of STP, give the same behaviour. -/
def Obligations.OperandOfCmpAndStpIsUnused : Prop :=
  ∀ (n n' : Addr) (s : State), exec (.cmp n) s = exec (.cmp n') s ∧ exec (.stp n) s = exec (.stp n') s

/-! ### The Store -/

/-- R58: `MemWrite` replaces one word, leaves the others and the registers, and is visible to every later read, an
instruction fetch included. -/
def Obligations.MemWriteReplacesOneWord : Prop :=
  ∀ (s : State) (a : Addr) (v : Word),
    (s.memWrite a v).memRead a = v ∧
    (∀ b : Addr, b ≠ a → (s.memWrite a v).memRead b = s.memRead b) ∧
    (s.memWrite a v).acc = s.acc ∧ (s.memWrite a v).pc = s.pc ∧ s.sameStatus (s.memWrite a v) ∧
    ((s.memWrite a v).pc = a.setWidth 32 → (s.memWrite a v).fetchWord = some v)

/-- R32: two Stores are equal iff their 32 words are, and two core states are equal iff `ACC`, `PC`, `HALTED` and `Store`
are. The canonical form is what makes equal Stores equal data (log 15). -/
def Obligations.StoresAreEqualIffWordsAreEqual : Prop :=
  (∀ m m' : Memory, m.wf = true → m'.wf = true → (m = m' ↔ ∀ a : Addr, m.read a.toNat = m'.read a.toNat)) ∧
  (∀ s t : State, s.Inv → t.Inv →
    (s.sameArchitecture t ↔ s.acc = t.acc ∧ s.pc = t.pc ∧ s.halted = t.halted ∧ s.store = t.store))

/-- R56, R31 with decision D15 (log 13): the host reads back what it pokes, every other word stays, and an index of 32 or
more is refused with no effect. -/
def Obligations.HostPokeAndPeekStayInsideTheStore : Prop :=
  ∀ (s : State) (addr : Nat) (v : Word),
    (addr < 32 → ∃ t, hostStep (.poke addr v) s = some (.done, t) ∧ hostStep (.peek addr) t = some (.word v, t) ∧
      t.acc = s.acc ∧ t.pc = s.pc ∧ s.sameStatus t ∧
      ∀ b, b ≠ addr → hostStep (.peek b) t = (hostStep (.peek b) s).map fun r => (r.1, t)) ∧
    (32 ≤ addr → hostStep (.poke addr v) s = some (.refused, s) ∧ hostStep (.peek addr) s = some (.refused, s))

/-! ### Arithmetic -/

/-- R142, its five laws, over the integers. -/
def Obligations.ArithmeticWrapsModuloTwoToThe32 : Prop :=
  ∀ a b : Word,
    ((neg32 a).toNat = (2 ^ 32 - a.toNat) % 2 ^ 32 ∧ neg32 (neg32 a) = a ∧
      (neg32 a = a ↔ a = 0 ∨ a = 0x80000000) ∧ (a ≠ 0 → a ≠ 0x80000000 → (neg32 a).toInt = -a.toInt)) ∧
    ((add32 a b).toNat = (a.toNat + b.toNat) % 2 ^ 32 ∧
      ((add32 a b).toInt - (a.toInt + b.toInt)) % 2 ^ 32 = 0) ∧
    (sub32 a b = add32 a (neg32 b) ∧ ((sub32 a b).toNat : Int) = ((a.toNat : Int) - b.toNat) % 2 ^ 32) ∧
    ((-2 ^ 31 ≤ a.toInt - b.toInt ∧ a.toInt - b.toInt < 2 ^ 31 → (sub32 a b).toInt = a.toInt - b.toInt) ∧
      (a.toInt - b.toInt < -2 ^ 31 → (sub32 a b).toInt = a.toInt - b.toInt + 2 ^ 32) ∧
      (2 ^ 31 ≤ a.toInt - b.toInt → (sub32 a b).toInt = a.toInt - b.toInt - 2 ^ 32)) ∧
    ((isneg a = true ↔ a.toInt < 0) ∧ isneg 0x80000000 = true ∧ isneg 0 = false)

/-! ### Fetch, cycle and step -/

/-- R101: fetch/advance leaves `(signed(PC) + 1) mod 32`, the non-negative remainder, and changes nothing else. The
reduction is decision D2 (log 2), the wrap of the increment decision D3 (log 3). -/
def Obligations.FetchAdvanceGivesTheNonNegativeRemainder : Prop :=
  ∀ s : State,
    ((s.fetchAdvance pcMod).pc.toNat : Int) = (s.pc.toInt + 1) % 32 ∧ (s.fetchAdvance pcMod).pc.toNat < 32 ∧
    (s.fetchAdvance pcMod).acc = s.acc ∧ s.sameStore (s.fetchAdvance pcMod) ∧ s.sameStatus (s.fetchAdvance pcMod)

/-- D2: the two readings of "modulo" agree where `signed(PC +32 1)` is non-negative or a multiple of 32; elsewhere `trunc`
keeps the sign and gives a value in -31..-1 (log 2). -/
def Obligations.PcModReadingsDifferOnlyBelowZero : Prop :=
  ∀ pc : Word,
    (0 ≤ (pc + 1).toInt ∨ (pc + 1).toInt % 32 = 0 → reducePc .trunc pc = reducePc .euclid pc) ∧
    ((pc + 1).toInt < 0 ∧ (pc + 1).toInt % 32 ≠ 0 →
      (reducePc .trunc pc).toInt = -(-(pc + 1).toInt % 32) ∧
      -31 ≤ (reducePc .trunc pc).toInt ∧ (reducePc .trunc pc).toInt ≤ -1)

/-- R103, R161: a fetch address outside the Store raises DecodeAccessFault: nothing is executed, `PC` keeps the value of
fetch/advance, the address is recorded (D8, log 8), and the cycle counts (R107, D4; log 5). It takes the reading
`trunc` of D2 (log 2). -/
def Obligations.FetchOutsideTheStoreRaisesDecodeAccessFault : Prop :=
  ∀ s : State, s.halted = false → s.cycles + 1 < 2 ^ 32 →
    (s.pc + 1).toInt < 0 → (s.pc + 1).toInt % 32 ≠ 0 →
    ∃ t, issueCycle .trunc s = .next t ∧
      t.halted = true ∧ t.haltCause.code = 2 ∧ t.faultAddr = t.pc ∧ t.pc = reducePc .trunc s.pc ∧
      t.acc = s.acc ∧ s.sameStore t ∧ t.cycles = s.cycles + 1

/-- R100, R163 and 95 part 4 property 3: every cycle of a core that is not halted completes, adds one to `CYCLES` (D4,
log 5), and raises no run-time error: it leaves the status registers alone or halts by STP. The bound on the count is D6
(log 6); that no fetch fails rests on D2 (log 2). -/
def Obligations.EveryCycleCompletesWithoutRunTimeError : Prop :=
  ∀ s : State, s.halted = false → s.cycles + 1 < 2 ^ 32 →
    ∃ t, step s = .next t ∧ t.cycles = s.cycles + 1 ∧ t.faultAddr = s.faultAddr ∧
      ((t.halted = false ∧ t.haltCause = s.haltCause) ∨ (t.halted = true ∧ t.haltCause.code = 1))

/-- R102, R104: a step is the execute phase of the instruction decoded from the word at `low5(PC +32 1)`, run with `PC` at
that address, with one added to `CYCLES` (R107, D4; log 5). The address rests on D2 (log 2), the bound on the count on
D6 (log 6). -/
def Obligations.StepRunsTheDecodedInstruction : Prop :=
  ∀ (s : State) (i : Instr), s.halted = false → s.cycles + 1 < 2 ^ 32 →
    decode (s.store.read ((s.pc.toNat + 1) % 32)) = i →
    step s = (match exec i { s with pc := BitVec.ofNat 32 ((s.pc.toNat + 1) % 32) } with
      | .next t => .next { t with cycles := t.cycles + 1 }
      | .fault r => .fault r
      | .refused r => .refused r)

/-- R105 with decision D7 (log 7): a halted core has no step, and a run given to it returns 0 at once. A bounded run with
budget 0 does the same on any core (R106, D5; log 9). -/
def Obligations.HaltedCoreExecutesNoCycle : Prop :=
  ∀ (s : State) (b : Budget) (patience : Nat),
    (s.halted = true → step s = .fault .halted ∧ run b patience s = .ended { s with cycles := 0 }) ∧
    (run ⟨true, 0⟩ patience s = .ended { s with cycles := 0 })

/-- D6 (log 6): the step that would make `CYCLES` 2^32 is given no meaning. -/
def Obligations.CountOfTwoToThe32CyclesIsRefused : Prop :=
  ∀ s : State, s.halted = false → s.cycles = 2 ^ 32 - 1 → step s = .refused .cycleCountOverflow

/-- R112: what each instruction leaves in `PC`, and the next fetch address. The raw values after JMP, JRP and a skipping CMP
are decision D19 (log 4), the fetch address decision D2 (log 2). -/
def Obligations.PcAfterACycleFollowsTheTable : Prop :=
  ∀ s : State, s.halted = false → s.cycles + 1 < 2 ^ 32 →
    ∃ t, step s = .next t ∧
      match decode (s.memRead s.nextFetch) with
      | .jmp n => t.pc = s.memRead n ∧ t.nextFetch.toNat = ((s.memRead n).toNat + 1) % 32
      | .jrp n => t.pc.toNat = (s.nextFetch.toNat + (s.memRead n).toNat) % 2 ^ 32 ∧
          t.nextFetch.toNat = (s.nextFetch.toNat + (s.memRead n).toNat + 1) % 32
      | .cmp _ =>
          if s.acc.toInt < 0 then t.pc.toNat = s.nextFetch.toNat + 1 ∧ t.nextFetch.toNat = (s.nextFetch.toNat + 2) % 32
          else t.pc.toNat = s.nextFetch.toNat ∧ t.nextFetch.toNat = (s.nextFetch.toNat + 1) % 32
      | .ldn _ | .sto _ | .sub _ | .sub2 _ | .stp _ =>
          t.pc.toNat = s.nextFetch.toNat ∧ t.nextFetch.toNat = (s.nextFetch.toNat + 1) % 32

/-- R111: the model's cycle computes the spec's pseudocode of the whole cycle, transcribed on its own in
Machine/Reference.lean. It rests on D1, D2, D3 and D19 (logs 1 to 4), as R111 does. -/
def Obligations.CycleRefinesTheSpecPseudocode : Prop :=
  ∀ s : State, s.halted = false → ∃ t, cycle pcMod s = .next t ∧ t.toRef = refCycle s.toRef

/-- R28, R156: no cycle reads `CYCLES`, `HALT_CAUSE` or `FAULT_ADDR`: two cores whose `ACC`, `PC`, `Store` and `HALTED` agree
still agree after a step, whatever those registers hold. -/
def Obligations.NoCycleReadsTheStatusRegisters : Prop :=
  ∀ s s' : State, s.sameArchitecture s' → s.halted = false → s.cycles + 1 < 2 ^ 32 → s'.cycles + 1 < 2 ^ 32 →
    ∃ t t', step s = .next t ∧ step s' = .next t' ∧ t.sameArchitecture t'

/-! ### The instructions -/

/-- R120: JMP writes the whole memory word to `PC` and nothing else; the next fetch is one past it. The code 0 in the
encoding clause is the spec's D1 (log 1); that the word is not reduced is D19 (log 4), the fetch address D2 (log 2). -/
def Obligations.JmpWritesTheMemoryWordToPc : Prop :=
  (∀ w : Word, w &&& 0x0000E000 = 0x00000000 → decode w = .jmp (w.setWidth 5)) ∧
  ∀ (n : Addr) (s : State), ∃ t, exec (.jmp n) s = .next t ∧
    t.pc = s.memRead n ∧ t.nextFetch.toNat = ((s.memRead n).toNat + 1) % 32 ∧
    t.acc = s.acc ∧ s.sameStore t ∧ s.sameStatus t

/-- R121: JRP adds the memory word to `PC` and writes nothing else. Wrap on overflow is decision D3 (log 3), no reduction
D19 (log 4), the code 1 D1 (log 1), the next fetch address D2 (log 2). -/
def Obligations.JrpAddsTheMemoryWordToPc : Prop :=
  (∀ w : Word, w &&& 0x0000E000 = 0x00002000 → decode w = .jrp (w.setWidth 5)) ∧
  ∀ (n : Addr) (s : State), ∃ t, exec (.jrp n) s = .next t ∧
    t.pc.toNat = (s.pc.toNat + (s.memRead n).toNat) % 2 ^ 32 ∧
    (-2 ^ 31 ≤ s.pc.toInt + (s.memRead n).toInt → s.pc.toInt + (s.memRead n).toInt < 2 ^ 31 →
      t.pc.toInt = s.pc.toInt + (s.memRead n).toInt) ∧
    ((t.nextFetch.toNat : Int) = (s.pc.toInt + (s.memRead n).toInt + 1) % 32) ∧
    t.acc = s.acc ∧ s.sameStore t ∧ s.sameStatus t

/-- R130: LDN loads the two's-complement negative of all 32 bits of the memory word, wrapping silently, and writes `ACC`
only. The code 2 in the encoding clause is the spec's D1 (log 1). -/
def Obligations.LdnLoadsTheNegatedWord : Prop :=
  (∀ w : Word, w &&& 0x0000E000 = 0x00004000 → decode w = .ldn (w.setWidth 5)) ∧
  ∀ (n : Addr) (s : State), ∃ t, exec (.ldn n) s = .next t ∧
    t.acc.toNat = (2 ^ 32 - (s.memRead n).toNat) % 2 ^ 32 ∧
    (s.memRead n = 0x80000000 → t.acc = 0x80000000) ∧
    t.pc = s.pc ∧ s.sameStore t ∧ s.sameStatus t

/-- R131: STO writes all 32 bits of `ACC` to the addressed word, and no other state; it never fails. The code 3 in the
encoding clause is the spec's D1 (log 1). -/
def Obligations.StoWritesTheAccumulatorToOneWord : Prop :=
  (∀ w : Word, w &&& 0x0000E000 = 0x00006000 → decode w = .sto (w.setWidth 5)) ∧
  ∀ (n : Addr) (s : State), ∃ t, exec (.sto n) s = .next t ∧
    (effectiveAddress n).toNat < 32 ∧ t.store.read (effectiveAddress n).toNat = s.acc ∧
    (∀ a, a ≠ (effectiveAddress n).toNat → t.store.read a = s.store.read a) ∧
    t.acc = s.acc ∧ t.pc = s.pc ∧ s.sameStatus t

/-- R140: SUB subtracts the memory word from `ACC` modulo 2^32, equal to adding its negative, and writes `ACC` only. The
code 4 in the encoding clause is the spec's D1 (log 1). -/
def Obligations.SubSubtractsTheMemoryWord : Prop :=
  (∀ w : Word, w &&& 0x0000E000 = 0x00008000 → decode w = .sub (w.setWidth 5)) ∧
  ∀ (n : Addr) (s : State), ∃ t, exec (.sub n) s = .next t ∧
    (t.acc.toNat : Int) = ((s.acc.toNat : Int) - (s.memRead n).toNat) % 2 ^ 32 ∧
    t.acc = add32 s.acc (neg32 (s.memRead n)) ∧
    t.pc = s.pc ∧ s.sameStore t ∧ s.sameStatus t

/-- R141: SUB2 does exactly what SUB does; only its code and its mnemonic differ. The encoding clause, the bit 13 and
the code 5 are the spec's D1 (log 1). -/
def Obligations.Sub2BehavesExactlyLikeSub : Prop :=
  (∀ w : Word, w &&& 0x0000E000 = 0x0000A000 → decode w = .sub2 (w.setWidth 5)) ∧
  (∀ (n : Addr) (s : State), exec (.sub2 n) s = exec (.sub n) s ∧ ∃ t, exec (.sub2 n) s = .next t ∧
    (t.acc.toNat : Int) = ((s.acc.toNat : Int) - (s.memRead n).toNat) % 2 ^ 32 ∧
    t.pc = s.pc ∧ s.sameStore t ∧ s.sameStatus t) ∧
  (∀ n : Addr, encode (.sub2 n) = encode (.sub n) ^^^ 0x00002000) ∧
  (∀ n : Addr, parseMnemonic "SUB2".toList = some (.machine 5) ∧ mnemonicOf (.sub2 n) = "SUB2".toList)

/-- R150: CMP adds one to `PC` exactly when `ACC` is negative, and writes nothing else. That `PC` is not reduced is the
spec's D19 (log 4), its wrap D3 (log 3), the code 6 D1 (log 1), the next fetch address D2 (log 2). -/
def Obligations.CmpSkipsExactlyWhenNegative : Prop :=
  (∀ w : Word, w &&& 0x0000E000 = 0x0000C000 → decode w = .cmp (w.setWidth 5)) ∧
  ∀ (n : Addr) (s : State), ∃ t, exec (.cmp n) s = .next t ∧
    (if s.acc.toInt < 0 then t.pc.toNat = (s.pc.toNat + 1) % 2 ^ 32 ∧ t.nextFetch.toNat = (s.pc.toNat + 2) % 32
     else t.pc = s.pc) ∧
    t.acc = s.acc ∧ s.sameStore t ∧ s.sameStatus t

/-- R155: STP sets `HALTED` and `HALT_CAUSE` = 1 and writes nothing else; no further cycle is issued. The register
`HALT_CAUSE` is decision D8 (log 8), the code 7 D1 (log 1). -/
def Obligations.StpHaltsAndChangesNothingElse : Prop :=
  (∀ w : Word, w &&& 0x0000E000 = 0x0000E000 → decode w = .stp (w.setWidth 5)) ∧
  ∀ (n : Addr) (s : State), ∃ t, exec (.stp n) s = .next t ∧
    t.halted = true ∧ t.haltCause.code = 1 ∧ t.faultAddr = s.faultAddr ∧ t.cycles = s.cycles ∧
    t.acc = s.acc ∧ t.pc = s.pc ∧ s.sameStore t ∧ step t = .fault .halted

/-- R61: a word that STO writes at the next fetch address is the instruction the next cycle executes. The fetch address
rests on D2 (log 2), the count on D4 (R107; log 5), its bound on D6 (log 6). -/
def Obligations.StoredWordIsTheNextInstructionFetched : Prop :=
  ∀ (s : State) (n : Addr), s.halted = false → s.cycles + 2 < 2 ^ 32 →
    decode (s.memRead s.nextFetch) = .sto n → n.toNat = (s.nextFetch.toNat + 1) % 32 →
    ∃ t u, step s = .next t ∧ exec (decode s.acc) (t.fetchAdvance pcMod) = .next u ∧ step t = .next u.countCycle

/-- R20, R22, R23 and 95 part 4 property 5: besides `PC` and the count, a step changes `ACC` only by LDN, SUB or SUB2, a
Store word only by STO (the word at its operand, to `ACC`), `HALTED` only by STP. R23 lets a run-time error set `HALTED` too:
that no step raises one rests on D2 (log 2); `HALT_CAUSE` and `FAULT_ADDR` are D8's (log 8). -/
def Obligations.StepWritesOnlyWhatItsInstructionMay : Prop :=
  ∀ s t : State, step s = .next t →
    (t.acc ≠ s.acc → ∃ n, s.nextInstr = .ldn n ∨ s.nextInstr = .sub n ∨ s.nextInstr = .sub2 n) ∧
    (∀ a, t.store.read a ≠ s.store.read a → ∃ n, s.nextInstr = .sto n ∧ a = n.toNat ∧ t.store.read a = s.acc) ∧
    (t.halted ≠ s.halted ∨ t.haltCause ≠ s.haltCause → ∃ n, s.nextInstr = .stp n) ∧ t.faultAddr = s.faultAddr

/-! ### Halting and reset -/

/-- R175 with decision D8 (log 8): a raise writes `HALTED`, `HALT_CAUSE` and, when the error carries an address,
`FAULT_ADDR`, and nothing else. -/
def Obligations.RaiseWritesOnlyTheHaltRegisters : Prop :=
  ∀ (s : State) (addr : Word) (e : RunError),
    (s.raise (.decodeAccess addr)).haltCause.code = 2 ∧ (s.raise (.decodeAccess addr)).faultAddr = addr ∧
    (s.raise .invariantViolation).haltCause.code = 3 ∧ (s.raise .invariantViolation).faultAddr = s.faultAddr ∧
    (s.raise e).halted = true ∧ (s.raise e).acc = s.acc ∧ (s.raise e).pc = s.pc ∧ s.sameStore (s.raise e) ∧
    (s.raise e).cycles = s.cycles

/-- R34 (e), R166: a cycle that leaves the core halted has changed nothing but `PC` (by fetch/advance), `HALTED`,
`HALT_CAUSE` and possibly `FAULT_ADDR` (D8, log 8); under either reading of `PC_MOD` (D2, log 2). That this cycle counts too,
be it STP's or a failed decode's, is R107's, by decision D4 and conflict C7 (log 5). -/
def Obligations.HaltingCycleOnlyAdvancesPc : Prop :=
  ∀ (m : PcMod) (s t : State), issueCycle m s = .next t → t.halted = true →
    t.acc = s.acc ∧ s.sameStore t ∧ t.pc = reducePc m s.pc ∧ t.cycles = s.cycles + 1 ∧
    ((t.haltCause.code = 1 ∧ t.faultAddr = s.faultAddr) ∨ (t.haltCause.code = 2 ∧ t.faultAddr = t.pc))

/-- R23, R167, R191 with decision D16 (log 11): no host operation but reset, and no run, changes a halted core's `HALTED`,
`HALT_CAUSE`, `FAULT_ADDR`, `ACC` or `PC`; reset clears them. -/
def Obligations.OnlyResetLeavesTheHaltedState : Prop :=
  ∀ (op : HostOp) (s t : State) (r : HostReply), s.halted = true → hostStep op s = some (r, t) →
    if op = .reset then t = State.reset ∧ t.halted = false
    else t.halted = true ∧ t.haltCause = s.haltCause ∧ t.faultAddr = s.faultAddr ∧ t.acc = s.acc ∧ t.pc = s.pc

/-- R190: every element after reset. `CYCLES`, `HALT_CAUSE` and `FAULT_ADDR` are the spec's decisions D6 and D8 (logs 6, 8). -/
def Obligations.ResetClearsEveryElement : Prop :=
  (∀ s : State, hostStep .reset s = some (.done, State.reset)) ∧
  State.reset.acc = 0 ∧ State.reset.pc = 0 ∧ State.reset.halted = false ∧ State.reset.cycles = 0 ∧
  State.reset.haltCause.code = 0 ∧ State.reset.faultAddr = 0 ∧ ∀ a : Addr, State.reset.memRead a = 0

/-- R29, R31, R196: after reset every element has a defined value, and a load replaces all 32 words at once and touches no
register. The canonical form the Store has then is the model's own (log 15). -/
def Obligations.EveryElementIsDefinedAfterResetAndLoad : Prop :=
  (State.reset.acc = 0 ∧ State.reset.pc = 0 ∧ State.reset.halted = false ∧ ∀ a : Addr, State.reset.memRead a = 0) ∧
  ∀ (s : State) (img : Image), ∃ t, hostStep (.loadImage img) s = some (.done, t) ∧
    (∀ a : Addr, t.memRead a = img[a.toNat]'a.isLt) ∧ t.store.wf = true ∧
    t.acc = s.acc ∧ t.pc = s.pc ∧ s.sameStatus t

/-- R192: after reset and a load the first instruction executed is the word at address 1, for every image; address 0 is
fetched only from a `PC` whose low five bits are 31. The fetch address rests on D2 (log 2), the count on D4 (R107; log 5). -/
def Obligations.FirstInstructionExecutedIsAtAddressOne : Prop :=
  (∀ img : Image, ∃ t, exec (decode img[1]) ((State.reset.loadImage img).setPc 1) = .next t ∧
    step (State.reset.loadImage img) = .next t.countCycle) ∧
  ∀ s : State, (s.fetchAdvance pcMod).pc = 0 ↔ s.pc &&& 0x1F = 31

/-! ### Invariants -/

/-- The state after reset meets the invariant of `State.Inv` (R26, R27, R190). -/
def Obligations.ResetMeetsTheInvariant : Prop := State.reset.Inv ∧ State.reset.noRunError

/-- From every state that meets it, a step keeps the invariant: the Store's canonical form, `HALTED` iff `HALT_CAUSE` /= 0,
`FAULT_ADDR` 0 but after a decode access fault (R27), `CYCLES` below 2^32 (R26, D6; log 6); and no run-time error appears
(R175; D2, log 2). -/
def Obligations.StepKeepsTheInvariant : Prop :=
  ∀ s t : State, s.Inv → step s = .next t → t.Inv ∧ (s.noRunError → t.noRunError)

/-- Every host operation of R31, a whole run (R106) included, keeps the invariant (R26, R27; the count's bound is D6, log 6,
the registers D8, log 8, the Store's form log 15) and raises no run-time error, which rests on D2 (log 2). Operations act
between runs (D10, log 12), and a run left unfinished has no answer (log 17). -/
def Obligations.HostOperationsKeepTheInvariant : Prop :=
  ∀ (op : HostOp) (s t : State) (r : HostReply), s.Inv → hostStep op s = some (r, t) →
    t.Inv ∧ (s.noRunError → t.noRunError)

/-! ### Runs -/

/-- R106, R108, R165: a run that ends is halted, or has used up its budget exactly; a bounded run never exceeds it; a halt
in the last permitted cycle ends halted with `CYCLES` = `MAX_CYCLES`. The budget inputs are D5 (log 9); that the
halting cycle is in the count is D4 (R107; log 5). -/
def Obligations.RunEndsHaltedOrWithTheBudgetUsed : Prop :=
  ∀ (b : Budget) (patience : Nat) (s t : State), run b patience s = .ended t →
    (t.halted = true ∨ (t.halted = false ∧ b.bounded = true ∧ t.cycles = b.maxCycles.toNat)) ∧
    (b.bounded = true → t.cycles ≤ b.maxCycles.toNat) ∧ t.cycles ≤ patience

/-- R202: a bounded run always ends, from every state, after at most `MAX_CYCLES` cycles; it ends earlier only by halting
(95 part 4 property 11). That a halting cycle is in the count is D4 (R107; log 5). -/
def Obligations.BoundedRunAlwaysEnds : Prop :=
  ∀ (s : State) (maxCycles : Word), ∃ t, runBounded maxCycles s = .ended t ∧
    t.cycles ≤ maxCycles.toNat ∧ (t.halted = false → t.cycles = maxCycles.toNat)

/-- R109 with decision D14 (log 10): a run of n cycles and then one of m leaves what one run of n + m cycles leaves; the
counts add up, a halting cycle included (D4, log 5). -/
def Obligations.SuccessiveRunsCompose : Prop :=
  ∀ (s t u : State) (n m : Word), n.toNat + m.toNat < 2 ^ 32 → runBounded n s = .ended t → runBounded m t = .ended u →
    runBounded (n + m) s = .ended { u with cycles := t.cycles + u.cycles }

/-! ### Text -/

/-- R86: `hist` and `unhist` are inverse to each other. -/
def Obligations.HistoricalBitStringRoundTrips : Prop :=
  (∀ w : Word, unhist (hist w) = some w) ∧
  ∀ t : Text, t.length = 32 → (∀ c ∈ t, c = '0' ∨ c = '1') → ∃ w, unhist t = some w ∧ hist w = t

/-- R85 with R84: the snapshot line of a word at the expected index, with or without a comment, loads that word, under both
readings of N12 (log 21). -/
def Obligations.SnapshotLineLoadsItsWord : Prop :=
  ∀ (r : Reading) (i : Nat) (w : Word) (comment : Text), i < 32 →
    snapshotLine r i (decimal i ++ ':' :: ' ' :: hist w) = .word w ∧
    snapshotLine r i (decimal i ++ ':' :: ' ' :: hist w ++ ' ' :: ';' :: comment) = .word w

/-- R83: NUM is the only pseudo-instruction; its operand, 0 if omitted, is the image word verbatim, and every word can be
written so, under both readings of N12 (log 21). -/
def Obligations.NumEmitsItsOperandVerbatim : Prop :=
  (∀ t : Text, parseMnemonic t = some .num ↔ t = "NUM".toList) ∧
  ∀ r : Reading, asmStatement r ["NUM".toList] = .word 0 ∧
    (∀ (t : Text) (n : Int), readInt32 r t = some n →
      ∃ w, asmStatement r ["NUM".toList, t] = .word w ∧ w.toInt = n) ∧
    ∀ w : Word, ∃ t, asmStatement r ["NUM".toList, t] = .word w

/-- R82: the assembled word decodes to the named operation with the operand's low five bits. The mask is decision D11
(log 18). -/
def Obligations.AssembledWordDecodesToTheNamedOperation : Prop :=
  ∀ (code : BitVec 3) (n : Int),
    (decode (asmWord (.machine code) n)).code = code ∧
    ((decode (asmWord (.machine code) n)).operand.toNat : Int) = n % 32

/-- R84, R88: a text the assembly loader accepts has the line indices 0, 1, ..., k with k <= 31, and the words no line
names are 0. The index language is decision D13 (log 20), the zeros D12 (log 19). -/
def Obligations.AcceptedAssemblyHasContiguousIndices : Prop :=
  ∀ (src : Text) (img : Image), loadAssembly src = .image img →
    ∃ indices : List Nat, indicesWf indices = true ∧
      ((lines src).filterMap fun l => (tokens (stripComment l)).head?).map parseNat = indices.map some ∧
      ∀ (j : Nat) (h : j < 32), indices.length ≤ j → img[j] = 0

/-- R89, R82: assembling the disassembly of a word gives the word with its ignored bits cleared; so SUB2 stays SUB2. -/
def Obligations.AssemblingADisassemblyGivesTheCanonicalWord : Prop :=
  ∀ (r : Reading) (w : Word), asmStatement r (tokens (disassemble w)) = .word (w &&& 0x0000E01F)

/-- R80, R85 with N12 (log 21): a text that loads under the narrow reading loads, and gives the same image; so a text fails
only where every reading fails. That N12's two open spellings are read in these two ways is the model's choice. -/
def Obligations.TextOfTheGivenFormLoads : Prop :=
  ∀ parse ∈ [asmLine, snapshotLine], ∀ src : Text,
    (∀ img, loadAs (parse .narrow) src = .ok img → loadText parse src = .image img) ∧
    (∀ e l, loadText parse src = .failed e l → ∃ e' l', loadAs (parse .narrow) src = .error (e', l'))
end

