-- ==== Sys2Proof/Laws/Decode.lean ====
section
/-! SUPPORT. The two fields of a word as numbers, and what decoding keeps of them. -/

namespace Sys2Proof

/-- Bits 15..13 as a number (R72). -/
theorem opcodeField_toNat (w : Word) : (opcodeField w).toNat = w.toNat / 2 ^ 13 % 8 := by
  simp [opcodeField, BitVec.extractLsb'_toNat, Nat.shiftRight_eq_div_pow]

/-- Bits 4..0 as a number (R71). -/
theorem operandField_toNat (w : Word) : (operandField w).toNat = w.toNat % 32 := by
  simp [operandField, BitVec.extractLsb'_toNat]

/-- The table row a code selects has that code, and keeps the operand. -/
theorem opcodeOf_fields : ∀ (c : BitVec 3) (n : Addr), (opcodeOf c n).code = c ∧ (opcodeOf c n).operand = n := by
  decide

@[simp] theorem decode_code (w : Word) : (decode w).code = opcodeField w := (opcodeOf_fields _ _).1

@[simp] theorem decode_operand (w : Word) : (decode w).operand = operandField w := (opcodeOf_fields _ _).2

end Sys2Proof
end

