-- ==== Sys2Proof/Laws/Memory.lean ====
section
/-! SUPPORT. The Store's reads and writes: read after write, and that every operation keeps the canonical form. -/

namespace Sys2Proof.Machine

@[simp] theorem Memory.read_nil (a : Nat) : Memory.read [] a = Memory.unlisted := rfl

theorem Memory.read_cons (k : Nat) (v : Word) (m : Memory) (a : Nat) :
    Memory.read ((k, v) :: m) a = if k = a then v else m.read a := rfl

/-- An address below every cell of a list is not listed. -/
theorem Memory.read_of_lt {m : Memory} {a : Nat} (h : ∀ c ∈ m, a < c.1) : m.read a = Memory.unlisted := by
  induction m with
  | nil => rfl
  | cons c m ih =>
    have hc := h c (by simp)
    rw [Memory.read_cons, if_neg (by omega), ih fun d hd => h d (by simp [hd])]

theorem Memory.read_remove (m : Memory) (a b : Nat) :
    (m.remove a).read b = if b = a then Memory.unlisted else m.read b := by
  induction m with
  | nil => simp [Memory.remove]
  | cons c m ih =>
    obtain ⟨k, v⟩ := c
    by_cases hk : k = a
    · have hstep : Memory.remove ((k, v) :: m) a = Memory.remove m a := by simp [Memory.remove, hk]
      rw [hstep, ih, Memory.read_cons]
      by_cases hb : b = a
      · simp [hb]
      · simp [hb, show ¬ k = b by omega]
    · have hstep : Memory.remove ((k, v) :: m) a = (k, v) :: Memory.remove m a := by simp [Memory.remove, hk]
      rw [hstep, Memory.read_cons, ih, Memory.read_cons]
      by_cases hkb : k = b
      · simp [hkb, show ¬ b = a by omega]
      · simp [hkb]

/-- Inserting at an address that no cell lists. -/
theorem Memory.read_place {m : Memory} {a : Nat} (h : ∀ c ∈ m, c.1 ≠ a) (v : Word) (b : Nat) :
    (m.place a v).read b = if b = a then v else m.read b := by
  induction m with
  | nil => simp [Memory.place, Memory.read_cons, eq_comm]
  | cons c m ih =>
    obtain ⟨k, x⟩ := c
    have hk : k ≠ a := h (k, x) (by simp)
    have ih := ih fun d hd => h d (by simp [hd])
    unfold Memory.place
    split
    · rw [Memory.read_cons]
      simp [eq_comm]
    · rw [Memory.read_cons, ih, Memory.read_cons]
      by_cases hkb : k = b
      · simp [hkb, show ¬ b = a by omega]
      · simp [hkb]

theorem Memory.ne_of_mem_remove {m : Memory} {a : Nat} : ∀ c ∈ m.remove a, c.1 ≠ a := by
  intro c hc
  simpa using (List.mem_filter.mp hc).2

/-- Read after write (R58): the word written, and every other word as before. -/
theorem Memory.read_write (m : Memory) (a b : Nat) (v : Word) :
    (m.write a v).read b = if b = a then v else m.read b := by
  unfold Memory.write
  split
  · rename_i hv
    rw [Memory.read_remove, hv]
  · rw [Memory.read_place Memory.ne_of_mem_remove, Memory.read_remove]
    by_cases hb : b = a <;> simp [hb]

/-! ### The canonical form -/

theorem Memory.wf_iff (m : Memory) :
    m.wf = true ↔ (m.Pairwise fun c d => c.1 < d.1) ∧ ∀ c ∈ m, c.1 < Config.storeSize ∧ c.2 ≠ Memory.unlisted := by
  simp [Memory.wf]

theorem Memory.wf_nil : Memory.wf [] = true := by simp [Memory.wf_iff]

theorem Memory.wf_remove {m : Memory} (h : m.wf = true) (a : Nat) : (m.remove a).wf = true := by
  rw [Memory.wf_iff] at h ⊢
  exact ⟨h.1.filter _, fun c hc => h.2 c (List.mem_filter.mp hc).1⟩

theorem Memory.mem_place {m : Memory} {a : Nat} {v : Word} {c : Nat × Word} :
    c ∈ m.place a v ↔ c = (a, v) ∨ c ∈ m := by
  induction m with
  | nil => simp [Memory.place]
  | cons d m ih =>
    unfold Memory.place
    split
    · simp
    · simp only [List.mem_cons, ih]
      tauto

theorem Memory.wf_place {m : Memory} (h : m.wf = true) {a : Nat} (ha : a < Config.storeSize) {v : Word}
    (hv : v ≠ Memory.unlisted) (hm : ∀ c ∈ m, c.1 ≠ a) : (m.place a v).wf = true := by
  rw [Memory.wf_iff] at h ⊢
  refine ⟨?_, fun c hc => ?_⟩
  · obtain ⟨hs, -⟩ := h
    induction m with
    | nil => simp [Memory.place]
    | cons d m ih =>
      rw [List.pairwise_cons] at hs
      unfold Memory.place
      split
      · rename_i had
        refine List.pairwise_cons.mpr ⟨fun c hc => ?_, List.pairwise_cons.mpr hs⟩
        rcases List.mem_cons.mp hc with rfl | hc
        · exact had
        · exact Nat.lt_trans had (hs.1 c hc)
      · rename_i had
        refine List.pairwise_cons.mpr ⟨fun c hc => ?_, ih (fun c hc => hm c (by simp [hc])) hs.2⟩
        rcases Memory.mem_place.mp hc with rfl | hc
        · have := hm d (by simp)
          simp only at had ⊢
          omega
        · exact hs.1 c hc
  · rcases Memory.mem_place.mp hc with rfl | hc
    · exact ⟨ha, hv⟩
    · exact h.2 c hc

/-- A write inside the Store keeps the canonical form. -/
theorem Memory.wf_write {m : Memory} (h : m.wf = true) {a : Nat} (ha : a < Config.storeSize) (v : Word) :
    (m.write a v).wf = true := by
  unfold Memory.write
  split
  · exact Memory.wf_remove h a
  · rename_i hv
    exact Memory.wf_place (Memory.wf_remove h a) ha hv Memory.ne_of_mem_remove

theorem Memory.mem_ofWords {ws : List Word} {a : Nat} {c : Nat × Word} (h : c ∈ Memory.ofWords a ws) :
    a ≤ c.1 ∧ c.1 < a + ws.length ∧ c.2 ≠ Memory.unlisted := by
  induction ws generalizing a with
  | nil => simp [Memory.ofWords] at h
  | cons w ws ih =>
    unfold Memory.ofWords at h
    rw [List.length_cons]
    split at h
    · obtain ⟨hlo, hhi, hv⟩ := ih h
      exact ⟨by omega, by omega, hv⟩
    · rename_i hw
      rcases List.mem_cons.mp h with rfl | h
      · exact ⟨Nat.le_refl _, by simp, hw⟩
      · obtain ⟨hlo, hhi, hv⟩ := ih h
        exact ⟨by omega, by omega, hv⟩

theorem Memory.pairwise_ofWords (ws : List Word) (a : Nat) :
    (Memory.ofWords a ws).Pairwise fun c d => c.1 < d.1 := by
  induction ws generalizing a with
  | nil => simp [Memory.ofWords]
  | cons w ws ih =>
    unfold Memory.ofWords
    split
    · exact ih _
    · refine List.pairwise_cons.mpr ⟨fun c hc => ?_, ih _⟩
      have := (Memory.mem_ofWords hc).1
      simp only
      omega

/-- Loading an image gives a Store in canonical form. -/
theorem Memory.wf_ofImage (img : Image) : (Memory.ofImage img).wf = true := by
  refine (Memory.wf_iff _).mpr ⟨Memory.pairwise_ofWords _ _, fun c hc => ?_⟩
  have h := Memory.mem_ofWords hc
  simp only [Vector.length_toList] at h
  exact ⟨by simpa [Config.storeSize] using h.2.1, h.2.2⟩

theorem Memory.read_ofWords (ws : List Word) (a b : Nat) :
    (Memory.ofWords a ws).read b = if a ≤ b then ws.getD (b - a) 0 else 0 := by
  induction ws generalizing a with
  | nil => simp [Memory.ofWords, Memory.unlisted]
  | cons w ws ih =>
    have htail : (Memory.ofWords (a + 1) ws).read b = if a + 1 ≤ b then ws.getD (b - (a + 1)) 0 else 0 := ih (a + 1)
    have hcons : (Memory.ofWords a (w :: ws)).read b = if a = b then w else (Memory.ofWords (a + 1) ws).read b := by
      conv_lhs => unfold Memory.ofWords
      split
      · rename_i hw
        split
        · rename_i hab
          rw [htail, if_neg (by omega), hw]
          rfl
        · rfl
      · rw [Memory.read_cons]
    rw [hcons, htail]
    by_cases hab : a = b
    · simp [hab]
    · by_cases hle : a ≤ b
      · obtain ⟨k, rfl⟩ : ∃ k, b = a + 1 + k := ⟨b - (a + 1), by omega⟩
        rw [if_neg hab, if_pos (by omega), if_pos hle, show a + 1 + k - (a + 1) = k by omega,
          show a + 1 + k - a = k + 1 by omega]
        rfl
      · rw [if_neg hab, if_neg (by omega), if_neg hle]

/-- Every word of a loaded image is what the Store then reads. -/
theorem Memory.read_ofImage (img : Image) {i : Nat} (h : i < 32) : (Memory.ofImage img).read i = img[i] := by
  unfold Memory.ofImage
  rw [Memory.read_ofWords]
  simp [h]

end Sys2Proof.Machine
end

