-- ==== Sys2Proof/Laws/State.lean ====
section
/-! SUPPORT. What each named update of the state does to each field. -/

namespace Sys2Proof.Machine

variable (s : State) (v : Word) (a : Addr) (e : RunError) (img : Image)

@[simp] theorem State.setAcc_acc : (s.setAcc v).acc = v := rfl
@[simp] theorem State.setAcc_pc : (s.setAcc v).pc = s.pc := rfl
@[simp] theorem State.setAcc_store : (s.setAcc v).store = s.store := rfl
@[simp] theorem State.setAcc_halted : (s.setAcc v).halted = s.halted := rfl
@[simp] theorem State.setAcc_cycles : (s.setAcc v).cycles = s.cycles := rfl
@[simp] theorem State.setAcc_haltCause : (s.setAcc v).haltCause = s.haltCause := rfl
@[simp] theorem State.setAcc_faultAddr : (s.setAcc v).faultAddr = s.faultAddr := rfl

@[simp] theorem State.setPc_acc : (s.setPc v).acc = s.acc := rfl
@[simp] theorem State.setPc_pc : (s.setPc v).pc = v := rfl
@[simp] theorem State.setPc_store : (s.setPc v).store = s.store := rfl
@[simp] theorem State.setPc_halted : (s.setPc v).halted = s.halted := rfl
@[simp] theorem State.setPc_cycles : (s.setPc v).cycles = s.cycles := rfl
@[simp] theorem State.setPc_haltCause : (s.setPc v).haltCause = s.haltCause := rfl
@[simp] theorem State.setPc_faultAddr : (s.setPc v).faultAddr = s.faultAddr := rfl
@[simp] theorem State.setPc_memRead : (s.setPc v).memRead a = s.memRead a := rfl
@[simp] theorem State.setPc_setPc (w : Word) : (s.setPc v).setPc w = s.setPc w := rfl

@[simp] theorem State.memWrite_acc : (s.memWrite a v).acc = s.acc := rfl
@[simp] theorem State.memWrite_pc : (s.memWrite a v).pc = s.pc := rfl
@[simp] theorem State.memWrite_store : (s.memWrite a v).store = s.store.write a.toNat v := rfl
@[simp] theorem State.memWrite_halted : (s.memWrite a v).halted = s.halted := rfl
@[simp] theorem State.memWrite_cycles : (s.memWrite a v).cycles = s.cycles := rfl
@[simp] theorem State.memWrite_haltCause : (s.memWrite a v).haltCause = s.haltCause := rfl
@[simp] theorem State.memWrite_faultAddr : (s.memWrite a v).faultAddr = s.faultAddr := rfl

@[simp] theorem State.raise_acc : (s.raise e).acc = s.acc := rfl
@[simp] theorem State.raise_pc : (s.raise e).pc = s.pc := rfl
@[simp] theorem State.raise_store : (s.raise e).store = s.store := rfl
@[simp] theorem State.raise_halted : (s.raise e).halted = true := rfl
@[simp] theorem State.raise_cycles : (s.raise e).cycles = s.cycles := rfl
@[simp] theorem State.raise_haltCause : (s.raise e).haltCause = e.cause := rfl
@[simp] theorem State.raise_faultAddr : (s.raise e).faultAddr = e.record s.faultAddr := rfl

@[simp] theorem State.halt_acc : s.halt.acc = s.acc := rfl
@[simp] theorem State.halt_pc : s.halt.pc = s.pc := rfl
@[simp] theorem State.halt_store : s.halt.store = s.store := rfl
@[simp] theorem State.halt_halted : s.halt.halted = true := rfl
@[simp] theorem State.halt_cycles : s.halt.cycles = s.cycles := rfl
@[simp] theorem State.halt_haltCause : s.halt.haltCause = .stop := rfl
@[simp] theorem State.halt_faultAddr : s.halt.faultAddr = s.faultAddr := rfl

@[simp] theorem State.countCycle_acc : s.countCycle.acc = s.acc := rfl
@[simp] theorem State.countCycle_pc : s.countCycle.pc = s.pc := rfl
@[simp] theorem State.countCycle_store : s.countCycle.store = s.store := rfl
@[simp] theorem State.countCycle_halted : s.countCycle.halted = s.halted := rfl
@[simp] theorem State.countCycle_cycles : s.countCycle.cycles = s.cycles + 1 := rfl
@[simp] theorem State.countCycle_haltCause : s.countCycle.haltCause = s.haltCause := rfl
@[simp] theorem State.countCycle_faultAddr : s.countCycle.faultAddr = s.faultAddr := rfl

@[simp] theorem State.startRun_acc : s.startRun.acc = s.acc := rfl
@[simp] theorem State.startRun_pc : s.startRun.pc = s.pc := rfl
@[simp] theorem State.startRun_store : s.startRun.store = s.store := rfl
@[simp] theorem State.startRun_halted : s.startRun.halted = s.halted := rfl
@[simp] theorem State.startRun_cycles : s.startRun.cycles = 0 := rfl
@[simp] theorem State.startRun_haltCause : s.startRun.haltCause = s.haltCause := rfl
@[simp] theorem State.startRun_faultAddr : s.startRun.faultAddr = s.faultAddr := rfl

@[simp] theorem State.loadImage_acc : (s.loadImage img).acc = s.acc := rfl
@[simp] theorem State.loadImage_pc : (s.loadImage img).pc = s.pc := rfl
@[simp] theorem State.loadImage_store : (s.loadImage img).store = Memory.ofImage img := rfl
@[simp] theorem State.loadImage_halted : (s.loadImage img).halted = s.halted := rfl
@[simp] theorem State.loadImage_cycles : (s.loadImage img).cycles = s.cycles := rfl
@[simp] theorem State.loadImage_haltCause : (s.loadImage img).haltCause = s.haltCause := rfl
@[simp] theorem State.loadImage_faultAddr : (s.loadImage img).faultAddr = s.faultAddr := rfl

/-- SUB and SUB2 read one word and write `ACC`. -/
theorem State.subtractOperand_eq : s.subtractOperand a = s.setAcc (s.acc - s.memRead a) := rfl

/-- A direct operand names the Store word at its own value. -/
@[simp] theorem State.operandWord_eq : s.operandWord a = s.memRead a := rfl

@[simp] theorem State.storeOperand_eq : s.storeOperand a v = s.memWrite a v := rfl

end Sys2Proof.Machine
end

