-- ==== Sys2Proof/Laws/Exec.lean ====
section
/-! SUPPORT. One lemma each for fetch/advance, the execute phase, the cycle and the step: everything they can do. -/

namespace Sys2Proof.Machine

/-! ### Fetch -/

theorem low5_toNat (a : Word) : (low5 a).toNat = a.toNat % 32 := by
  simp [low5, BitVec.extractLsb'_toNat]
  omega

theorem nextFetch_toNat (s : State) : s.nextFetch.toNat = (s.pc.toNat + 1) % 32 := by
  simp [State.nextFetch]

/-- What fetch/advance leaves in `PC` under `PC_MOD` = `euclid`: the next fetch address. -/
theorem reducePc_pcMod (s : State) : reducePc pcMod s.pc = s.nextFetch.setWidth 32 := by
  apply BitVec.eq_of_toNat_eq
  rw [show reducePc pcMod s.pc = low5 (add32 s.pc 1) from rfl, low5_toNat]
  simp [State.nextFetch, add32]
  omega

theorem fetchAdvance_eq (s : State) (m : PcMod) : s.fetchAdvance m = s.setPc (reducePc m s.pc) := rfl

/-- A `PC` that zero-extends a Store address fetches the word there. -/
theorem fetchWord_setPc (s : State) (a : Addr) :
    (s.setPc (a.setWidth 32)).fetchWord = some (s.memRead a) := by
  have hnat : (a.setWidth 32 : Word).toNat = a.toNat := by
    simpa using Nat.mod_eq_of_lt (Nat.lt_trans a.isLt (by decide : 2 ^ 5 < 2 ^ 32))
  have hin : (a.setWidth 32 : Word).toNat < Config.storeSize := by
    rw [hnat]
    exact a.isLt
  have hback : (a.setWidth 32 : Word).setWidth 5 = a := by
    apply BitVec.eq_of_toNat_eq
    rw [BitVec.toNat_setWidth, hnat]
    exact Nat.mod_eq_of_lt a.isLt
  rw [State.fetchWord, State.setPc_pc, storeIndex, if_pos hin, hback]
  rfl

/-! ### Execute -/

/-- The execute phase always answers a next state, the one the instruction's rule gives. -/
theorem exec_eq (i : Instr) (s : State) :
    exec i s = .next (match i with
      | .jmp n => s.setPc (s.memRead n)
      | .jrp n => s.setPc (s.pc + s.memRead n)
      | .ldn n => s.setAcc (-s.memRead n)
      | .sto n => s.memWrite n s.acc
      | .sub n => s.setAcc (s.acc - s.memRead n)
      | .sub2 n => s.setAcc (s.acc - s.memRead n)
      | .cmp _ => s.setPc (if isneg s.acc then s.pc + 1 else s.pc)
      | .stp _ => s.halt) := by
  cases i with
  | cmp n =>
    simp only [exec, execCmp, Host.Outcome.next.injEq]
    split <;> rfl
  | _ => rfl

/-- Everything an execute phase can do to the state: write `PC`, write `ACC`, store `ACC` in one word, or halt. -/
theorem exec_cases (i : Instr) (s : State) :
    ∃ t, exec i s = .next t ∧
      ((∃ v, t = s.setPc v) ∨ (∃ v, t = s.setAcc v) ∨ (∃ n, t = s.memWrite n s.acc) ∨ t = s.halt) := by
  refine ⟨_, exec_eq i s, ?_⟩
  cases i with
  | jmp n => exact .inl ⟨_, rfl⟩
  | jrp n => exact .inl ⟨_, rfl⟩
  | ldn n => exact .inr (.inl ⟨_, rfl⟩)
  | sto n => exact .inr (.inr (.inl ⟨n, rfl⟩))
  | sub n => exact .inr (.inl ⟨_, rfl⟩)
  | sub2 n => exact .inr (.inl ⟨_, rfl⟩)
  | cmp n => exact .inl ⟨_, rfl⟩
  | stp n => exact .inr (.inr (.inr rfl))

/-! ### Cycle and step -/

@[simp] theorem State.atFetch_acc (s : State) : s.atFetch.acc = s.acc := rfl
@[simp] theorem State.atFetch_pc (s : State) : s.atFetch.pc = s.nextFetch.setWidth 32 := rfl
@[simp] theorem State.atFetch_store (s : State) : s.atFetch.store = s.store := rfl
@[simp] theorem State.atFetch_halted (s : State) : s.atFetch.halted = s.halted := rfl
@[simp] theorem State.atFetch_cycles (s : State) : s.atFetch.cycles = s.cycles := rfl
@[simp] theorem State.atFetch_haltCause (s : State) : s.atFetch.haltCause = s.haltCause := rfl
@[simp] theorem State.atFetch_faultAddr (s : State) : s.atFetch.faultAddr = s.faultAddr := rfl
@[simp] theorem State.atFetch_memRead (s : State) (a : Addr) : s.atFetch.memRead a = s.memRead a := rfl

/-- A cycle executes the instruction it fetched; under `euclid` no fetch fails. -/
theorem cycle_eq (s : State) : cycle pcMod s = exec s.nextInstr s.atFetch := by
  unfold cycle decodeExecute
  rw [fetchAdvance_eq, reducePc_pcMod, fetchWord_setPc]
  rfl

/-- The step of a core that is not halted and whose count has room: the execute phase, counted. -/
theorem step_of_exec {s u : State} (hh : s.halted = false) (hc : s.cycles + 1 < 2 ^ Config.cycleWidth)
    (hu : exec s.nextInstr s.atFetch = .next u) : step s = .next u.countCycle := by
  unfold step issueCycle
  rw [cycle_eq, hu, hh, if_pos hc]
  rfl

/-- Everything a step that answers a next state has done. -/
theorem step_cases {s t : State} (h : step s = .next t) :
    s.halted = false ∧ s.cycles + 1 < 2 ^ Config.cycleWidth ∧
      ∃ u, exec s.nextInstr s.atFetch = .next u ∧ t = u.countCycle := by
  unfold step issueCycle at h
  rw [cycle_eq] at h
  split at h
  · cases h
  · rename_i hh
    split at h
    · rename_i hc
      obtain ⟨u, hu, -⟩ := exec_cases s.nextInstr s.atFetch
      rw [hu] at h
      exact ⟨by simpa using hh, hc, u, hu, (by simpa using h.symm)⟩
    · cases h

end Sys2Proof.Machine
end

