-- ==== Sys2Proof/Laws/Load.lean ====
section
/-! SUPPORT. What a load can answer, in terms of the two readings of a text (R90; log 21). -/

namespace Sys2Proof.Machine

theorem loadText_eq_image_iff (parse : Reading → Nat → Text → LineResult) (src : Text) (img : Image) :
    loadText parse src = .image img ↔ loadAs (parse .wide) src = .ok img ∧ loadAs (parse .narrow) src = .ok img := by
  unfold loadText
  cases loadAs (parse .wide) src with
  | error x => simp
  | ok i => dsimp only; split <;> simp <;> rintro rfl <;> assumption

theorem loadText_eq_failed_iff (parse : Reading → Nat → Text → LineResult) (src : Text) (e : LoadError) (l : Text) :
    loadText parse src = .failed e l ↔ loadAs (parse .wide) src = .error (e, l) := by
  unfold loadText
  cases loadAs (parse .wide) src with
  | error x => simp [Prod.ext_iff]
  | ok i => dsimp only; split <;> simp

/-- Both readings agree on an integer that has no leading `+`. -/
theorem readNat_eq_parseNat (r : Reading) (t : Text) (h : t.head? ≠ some '+') : readNat r t = parseNat t := by
  unfold readNat; split <;> simp_all

theorem readInt32_eq_parseInt32 (r : Reading) (t : Text) (h : t.head? ≠ some '+') : readInt32 r t = parseInt32 t := by
  unfold readInt32; split <;> simp_all

end Sys2Proof.Machine
end

