-- ==== Sys2Proof/Laws/PerInstr.lean ====
section
/-! SUPPORT. The layout of every instruction's canonical word (R70, R79): its operand in bits 4..0, its code in bits 15..13,
every ignored bit 0. One lemma per constructor. -/

namespace Sys2Proof.Laws.WordLayout

/-- The encoded word holds the two fields in their places, and nothing else. -/
def Statement (i : Instr) : Prop :=
  operandField (encode i) = i.operand ∧ opcodeField (encode i) = i.code ∧ encode i &&& 0xFFFF1FE0 = 0

/-- The layout of a packed pair of fields; a finite question, 8 codes by 32 operands. -/
theorem packFields_layout : ∀ (c : BitVec 3) (n : Addr),
    operandField (packFields c n) = n ∧ opcodeField (packFields c n) = c ∧ packFields c n &&& 0xFFFF1FE0 = 0 := by
  decide

theorem jmp (n : Addr) : Statement (.jmp n) := packFields_layout 0 n
theorem jrp (n : Addr) : Statement (.jrp n) := packFields_layout 1 n
theorem ldn (n : Addr) : Statement (.ldn n) := packFields_layout 2 n
theorem sto (n : Addr) : Statement (.sto n) := packFields_layout 3 n
theorem sub (n : Addr) : Statement (.sub n) := packFields_layout 4 n
theorem sub2 (n : Addr) : Statement (.sub2 n) := packFields_layout 5 n
theorem cmp (n : Addr) : Statement (.cmp n) := packFields_layout 6 n
theorem stp (n : Addr) : Statement (.stp n) := packFields_layout 7 n

end Sys2Proof.Laws.WordLayout
end

