-- ==== Sys2Proof/Laws/Run.lean ====
section
/-! SUPPORT. One turn of the run loop (R106). -/

namespace Sys2Proof.Machine

/-- A run whose loop test fails ends where it stands. -/
theorem runLoop_of_stops {b : Budget} {s : State} (h : runContinues b s = false) (patience : Nat) :
    runLoop b patience s = .ended s := by
  cases patience <;> simp [runLoop, h]

/-- A run whose loop test holds issues one cycle. -/
theorem runLoop_of_continues {b : Budget} {s t : State} (h : runContinues b s = true) (hstep : step s = .next t)
    (patience : Nat) : runLoop b (patience + 1) s = runLoop b patience t := by
  simp [runLoop, h, hstep]

/-- A property of states that every step keeps holds where a run ends. -/
theorem runLoop_keeps {P : State → Prop} (hP : ∀ s t, P s → step s = .next t → P t) {b : Budget} :
    ∀ {patience : Nat} {s t : State}, P s → runLoop b patience s = .ended t → P t
  | 0, s, t, hs, h => by
    simp only [runLoop] at h
    split at h
    · cases h
    · cases h
      exact hs
  | patience + 1, s, t, hs, h => by
    simp only [runLoop] at h
    split at h
    · cases hst : step s with
      | next u =>
        simp only [hst] at h
        exact runLoop_keeps hP (hP s u hs hst) h
      | fault r => simp [hst] at h
      | refused r => simp [hst] at h
    · cases h
      exact hs

end Sys2Proof.Machine
end

