-- ==== Sys2Proof/Tests/Slice0.lean ====
section
/-! SUPPORT. Tests: words written out from 30_encoding.md, one-step vectors of 95_test_vectors.md, the well-formedness smoke
test, and a witness for the hypotheses of each statement. -/

namespace Sys2Proof.Tests

open Sys2Proof Sys2Proof.Machine

/-- A core after reset with these registers and cells. -/
def core (acc pc : Word) (cells : Memory) : State := { State.reset with acc := acc, pc := pc, store := cells }

/-- The next state of an outcome. -/
def nextOf : Outcome → Option State
  | .next t => some t
  | .fault _ => none
  | .refused _ => none

/-! ### Decoding: one word per constructor, its bits written out from R70 and R73 -/

theorem test_decode_jmp : decode 0b00000000000000000000000000010110 = .jmp 22 := by decide
theorem test_decode_jrp : decode 0b00000000000000000010000000011100 = .jrp 28 := by decide
theorem test_decode_ldn : decode 0b00000000000000000100000000011000 = .ldn 24 := by decide
theorem test_decode_sto : decode 0b00000000000000000110000000001100 = .sto 12 := by decide
theorem test_decode_sub : decode 0b00000000000000001000000000001011 = .sub 11 := by decide
theorem test_decode_sub2 : decode 0b00000000000000001010000000001011 = .sub2 11 := by decide
theorem test_decode_cmp : decode 0b00000000000000001100000000011111 = .cmp 31 := by decide
theorem test_decode_stp : decode 0b00000000000000001110000000011111 = .stp 31 := by decide

/-- 95 group E: arbitrary words, ignored bits set. -/
theorem test_decode_ignored_bits :
    decode 0x80000000 = .jmp 0 ∧ decode 0x00010000 = .jmp 0 ∧ decode 0x00001FE0 = .jmp 0 ∧
    decode 0xFFFF1FE7 = .jmp 7 ∧ decode 0x00012345 = .jrp 5 ∧ decode 0xDEADBEEF = .sub2 15 := by decide

/-- R79's table. -/
theorem test_encode : encode (.jrp 24) = 0x00002018 ∧ encode (.sub2 24) = 0x0000A018 ∧ encode (.stp 0) = 0x0000E000 := by
  decide

theorem test_decodeTableWord : decodeTableWord 32 0x8009 = some (.sub 9) ∧ decodeTableWord 16 0xE000 = some (.stp 0) := by
  decide

/-! ### Well-formedness -/

/-- The operand check holds at the field's largest value (R51); no term of `Instr` fails it. -/
theorem test_wf_operand_31 : (Instr.sto 31).wf = true := by decide

theorem test_wf_indices : indicesWf [0, 1, 2] = true ∧ indicesWf (List.range 32) = true := by decide

/-- Ill-formed index lists: none, not from 0, a gap (95 S8), a duplicate, too many. -/
theorem test_ill_formed_indices :
    indicesWf [] = false ∧ indicesWf [1, 2] = false ∧ indicesWf [0, 1, 2, 3, 5] = false ∧
    indicesWf [0, 1, 1] = false ∧ indicesWf (List.range 33) = false := by decide

/-- Stores that are not in canonical form: out of order, repeated, outside the Store, a listed zero. -/
theorem test_ill_formed_stores :
    Memory.wf [(2, 1), (1, 1)] = false ∧ Memory.wf [(1, 1), (1, 2)] = false ∧ Memory.wf [(32, 1)] = false ∧
    Memory.wf [(1, 0)] = false := by decide

/-! ### One step of each instruction (95 part 2) -/

/-- Group J: all 32 bits of the memory word. -/
theorem test_jmp_whole_word :
    (nextOf (step (core 0 0 [(1, 0x00000007), (7, 0x00012345)]))).map (·.pc) = some 0x00012345 := by decide

/-- Group J: the instruction word is its own operand. -/
theorem test_jmp_own_word : (nextOf (step (core 0 0 [(1, 1)]))).map (·.pc) = some 1 := by decide

/-- Group J: the sum wraps. -/
theorem test_jrp_wraps :
    (nextOf (step (core 0 4 [(5, 0x0000201F), (31, 0x7FFFFFFF)]))).map (·.pc) = some 0x80000004 := by decide

/-- Group J: `JRP 5` at address 5, relative to its own address. -/
theorem test_jrp_own_word : (nextOf (step (core 0 4 [(5, 0x00002005)]))).map (·.pc) = some 0x0000200A := by decide

/-- Group L: the one overflow case. -/
theorem test_ldn_of_most_negative :
    (nextOf (step (core 5 0 [(1, 0x00004009), (9, 0x80000000)]))).map (·.acc) = some 0x80000000 := by decide

/-- Group L: `LDN 1` at address 1. -/
theorem test_ldn_own_word : (nextOf (step (core 5 0 [(1, 0x00004001)]))).map (·.acc) = some 0xFFFFBFFF := by decide

/-- Group L: the highest address, where nothing was listed. -/
theorem test_sto_highest_address :
    (nextOf (step (core 0x80000000 0 [(1, 0x0000601F)]))).map (·.store) = some [(1, 0x0000601F), (31, 0x80000000)] := by
  decide

/-- Group L: a STO overwrites itself; storing 0 leaves the word unlisted. -/
theorem test_sto_own_word :
    (nextOf (step (core 0x0000E000 0 [(1, 0x00006001)]))).map (·.store) = some [(1, 0x0000E000)] ∧
    (nextOf (step (core 0 0 [(1, 0x00006001)]))).map (·.store) = some [] := by decide

/-- Group A: underflow wraps. -/
theorem test_sub_wraps :
    (nextOf (step (core 0x80000000 0 [(1, 0x00008009), (9, 1)]))).map (·.acc) = some 0x7FFFFFFF := by decide

/-- Group A: `SUB 1` at address 1. -/
theorem test_sub_own_word : (nextOf (step (core 0 0 [(1, 0x00008001)]))).map (·.acc) = some 0xFFFF7FFF := by decide

/-- Group A: `neg32` of the operand wraps first. -/
theorem test_sub2_of_most_negative :
    (nextOf (step (core 0 0 [(1, 0x0000A009), (9, 0x80000000)]))).map (·.acc) = some 0x80000000 := by decide

/-- Group A: overflow wraps. -/
theorem test_sub2_overflow :
    (nextOf (step (core 0x7FFFFFFF 0 [(1, 0x0000A009), (9, 0xFFFFFFFF)]))).map (·.acc) = some 0x80000000 := by decide

/-- Group C: a skip at address 31 leaves 32, not reduced. -/
theorem test_cmp_skips_at_31 :
    (nextOf (step (core 0x80000000 30 [(31, 0x0000C000)]))).map (·.pc) = some 32 := by decide

/-- Group C: 0 and 0x7FFFFFFF are not negative. -/
theorem test_cmp_does_not_skip :
    (nextOf (step (core 0 0 [(1, 0x0000C000)]))).map (·.pc) = some 1 ∧
    (nextOf (step (core 0x7FFFFFFF 0 [(1, 0x0000C000)]))).map (·.pc) = some 1 := by decide

/-- Group H: the data word -1 stops the machine. -/
theorem test_stp_any_word :
    (nextOf (step (core 7 0 [(1, 0xFFFFFFFF)]))).map (fun t => (t.halted, t.haltCause, t.pc, t.acc, t.cycles))
      = some (true, .stop, 1, 7, 1) := by decide

/-- S5: STP at address 0, after the wrap from 31. -/
theorem test_stp_at_0 :
    (nextOf (step (core 0 31 [(0, 0x0000E000)]))).map (fun t => (t.halted, t.pc)) = some (true, 0) := by decide

/-- Group F: fetch addresses, the rows where both readings of `PC_MOD` agree and the rows [D2] where they differ. -/
theorem test_fetch_advance :
    reducePc .euclid 31 = 0 ∧ reducePc .euclid 0x7FFFFFFF = 0 ∧ reducePc .euclid 0xFFFFFFFE = 31 ∧
    reducePc .euclid 0x80000004 = 5 ∧ reducePc .trunc 0x7FFFFFFF = 0 ∧ reducePc .trunc 0xFFFFFFDF = 0 ∧
    reducePc .trunc 0xFFFFFFFE = 0xFFFFFFFF ∧ reducePc .trunc 0x80000004 = 0xFFFFFFE5 := by decide

/-- Group F under `trunc`: the decode access fault records the address. -/
theorem test_decode_access_fault :
    (nextOf (issueCycle .trunc (core 5 0x80000004 []))).map
        (fun t => (t.halted, t.haltCause, t.faultAddr, t.pc, t.acc, t.cycles))
      = some (true, .decodeAccess, 0xFFFFFFE5, 0xFFFFFFE5, 5, 1) := by decide

/-- S1: from reset the all-zero Store executes `JMP 0` at address 1. -/
theorem test_step_from_reset :
    nextOf (step State.reset) = some { State.reset with cycles := 1 } := by decide

theorem test_withFetchWord :
    (nextOf (step (State.reset.withFetchWord 16 0xE000))).map (·.haltCause) = some .stop := by decide

/-! ### Host and runs (95 groups M and R) -/

theorem test_run_budget_0 : runBounded 0 State.reset = .ended State.reset := by decide

theorem test_run_stops_at_stp :
    runBounded 100 (core 0 0 [(1, 0x0000E000)])
      = .ended { core 0 1 [(1, 0x0000E000)] with halted := true, haltCause := .stop, cycles := 1 } := by decide

/-! ### Text (95 S3, S8, group E) -/

theorem test_hist : hist 0x00004018 = "00011000000000100000000000000000".toList := by decide

theorem test_unhist : unhist "11010000000001010000000000000000".toList = some 0x0000A00B := by decide

theorem test_asm_lines (r : Reading) :
    asmLine r 1 "1 LDN 24".toList = .word 0x00004018 ∧ asmLine r 1 "1 LDN".toList = .word 0x00004000 ∧
    asmLine r 1 "1 LDN 56".toList = .word 0x00004018 ∧ asmLine r 1 "1 LDN -8".toList = .word 0x00004018 ∧
    asmLine r 1 "1 NUM -2147483648".toList = .word 0x80000000 ∧ asmLine r 1 "1 STP 31 ; end".toList = .word 0x0000E01F ∧
    asmLine r 1 "  ; only a comment".toList = .skip := by cases r <;> decide

theorem test_asm_errors (r : Reading) :
    asmLine r 1 "1 ldn 24".toList = .bad .unknownMnemonic ∧ asmLine r 1 "1 NOP".toList = .bad .unknownMnemonic ∧
    asmLine r 32 "32 NUM 0".toList = .bad .indexOutOfRange ∧ asmLine r 1 "x NUM 0".toList = .bad .nonIntegerIndex ∧
    asmLine r 0 "+x NUM 0".toList = .bad .nonIntegerIndex ∧ asmLine r 1 "1 LDN +abc".toList = .bad .malformedLine ∧
    asmLine r 1 "1 LDN +-3".toList = .bad .malformedLine := by cases r <;> decide

/-- N12: whether a leading `+` loads is open; a text that fails however it is read fails. -/
theorem test_asm_leading_plus :
    loadAssembly "0 LDN +3".toList = .unspecified ∧ loadAssembly "+0 LDN 3".toList = .unspecified ∧
    loadAssembly "0 LDN +abc".toList = .failed .malformedLine "0 LDN +abc".toList ∧
    loadAssembly "+0 LDN 3\n2 STP".toList = .failed (.nonContiguousIndex 1) "2 STP".toList := ⟨rfl, rfl, rfl, rfl⟩

/-- S8: the gap names the expected index and the line. -/
theorem test_asm_gap :
    loadAssembly "0 NUM 0\n1 LDN 5\n2 STP\n3 NUM 0\n5 NUM 7".toList
      = .failed (.nonContiguousIndex 4) "5 NUM 7".toList := by decide

theorem test_snapshot_lines (r : Reading) :
    snapshotLine r 5 "5: 10000000000000000000000000000000 ; one".toList = .word 1 ∧
    snapshotLine r 4 "4: 00000000000000000000000000000001".toList = .word 0x80000000 ∧
    snapshotLine r 4 "4: 0001".toList = .bad (.wrongLength 4) ∧
    snapshotLine r 4 "4: 2000000000000000000000000000000x".toList = .bad .unparseableBinary ∧
    snapshotLine r 4 "4: 0101 0101".toList = .bad (.wrongLength 9) ∧
    snapshotLine r 4 "5: 0101 0101".toList = .bad (.nonContiguousIndex 4) ∧
    snapshotLine r 4 "4: 00000000000000000000000000000001 x".toList = .bad (.wrongLength 34) := by cases r <;> decide

/-- N12: spaces around the colon are open; a gap or a bad string behind them is fatal all the same. -/
theorem test_snapshot_spacing :
    loadSnapshot "0 : 10000000000000000000000000000000".toList = .unspecified ∧
    loadSnapshot "0:10000000000000000000000000000000".toList = .unspecified ∧
    loadSnapshot "5 : 10000000000000000000000000000000".toList
      = .failed (.nonContiguousIndex 0) "5 : 10000000000000000000000000000000".toList ∧
    loadSnapshot "0:0101".toList = .failed (.wrongLength 4) "0:0101".toList ∧
    loadSnapshot "0:".toList = .failed (.wrongLength 0) "0:".toList := ⟨rfl, rfl, rfl, rfl, rfl⟩

theorem test_disassemble :
    disassemble 0xDEADBEEF = "SUB2 15".toList ∧ disassemble 0x0000C01F = "CMP 31".toList := by decide

/-! ### Witnesses: a concrete state and operands for the hypotheses of each statement -/

/-- The state after one STO: a Store with a cell. -/
def afterSto : State := core 42 1 [(1, 0x00006005), (5, 42)]

theorem afterSto_inv : afterSto.Inv := ⟨by decide, by decide, fun _ => rfl, by decide⟩

/-- The halted state of 95 group H. -/
def stopped : State := { core 7 1 [(1, 0x0000E000)] with halted := true, haltCause := .stop, cycles := 1 }

theorem stopped_inv : stopped.Inv := ⟨by decide, by decide, fun _ => rfl, by decide⟩

/-- OpcodeMapBindsAllEightCodes and the encoding clauses of the eight instruction statements: a word for each code. -/
theorem test_witness_opcode_words :
    (0x00001FE0 : Word) &&& 0x0000E000 = 0x00000000 ∧ (0x00012345 : Word) &&& 0x0000E000 = 0x00002000 ∧
    (0xFFFF5FF8 : Word) &&& 0x0000E000 = 0x00004000 ∧ (0x0000600C : Word) &&& 0x0000E000 = 0x00006000 ∧
    (0x0000800B : Word) &&& 0x0000E000 = 0x00008000 ∧ (0xDEADBEEF : Word) &&& 0x0000E000 = 0x0000A000 ∧
    (0x0000C01F : Word) &&& 0x0000E000 = 0x0000C000 ∧ (0xFFFFFFFF : Word) &&& 0x0000E000 = 0x0000E000 := by decide

/-- DecodeOfEncodeIsTheInstruction. -/
theorem test_witness_wf : (Instr.jmp 31).wf = true ∧ (Instr.stp 0).wf = true := by decide

/-- IgnoredBitsChangeNoInstructionButAreData: two different words that agree in both fields. -/
theorem test_witness_ignored_bits :
    (0x00004018 : Word) ≠ 0xFFFF5FF8 ∧ (0x00004018 : Word) &&& 0x1F = 0xFFFF5FF8 &&& 0x1F ∧
    (0x00004018 : Word) &&& 0xE000 = 0xFFFF5FF8 &&& 0xE000 := by decide

/-- MemWriteReplacesOneWord: another word, and a `PC` at the written address, at the top of the Store. -/
theorem test_witness_memWrite :
    (0 : Addr) ≠ 31 ∧ ((core 0 31 []).memWrite 31 9).pc = (31 : Addr).setWidth 32 := by decide

/-- StoresAreEqualIffWordsAreEqual: canonical Stores, and states of the invariant. -/
theorem test_witness_canonical : afterSto.store.wf = true ∧ afterSto.Inv ∧ stopped.Inv :=
  ⟨by decide, afterSto_inv, stopped_inv⟩

/-- HostPokeAndPeekStayInsideTheStore, both clauses where they meet. -/
theorem test_witness_host_index :
    (31 < 32 ∧ hostStep (.peek 31) (core 0 0 [(31, 9)]) = some (.word 9, core 0 0 [(31, 9)])) ∧
    (32 ≤ 32 ∧ hostStep (.poke 32 9) State.reset = some (.refused, State.reset)) := by decide

/-- ArithmeticWrapsModuloTwoToThe32: operands of each clause, at the ends of the ranges. -/
theorem test_witness_arithmetic :
    ((0x7FFFFFFF : Word) ≠ 0 ∧ (0x7FFFFFFF : Word) ≠ 0x80000000) ∧
    (-2 ^ 31 ≤ (0x80000000 : Word).toInt - (0 : Word).toInt ∧ (0x80000000 : Word).toInt - (0 : Word).toInt < 2 ^ 31) ∧
    ((0x80000000 : Word).toInt - (1 : Word).toInt < -2 ^ 31) ∧
    (2 ^ 31 ≤ (0x7FFFFFFF : Word).toInt - (0xFFFFFFFF : Word).toInt) ∧ (0xFFFFFFFF : Word).toInt < 0 := by decide

/-- PcModReadingsDifferOnlyBelowZero: non-negative, a negative multiple of 32, and the rest at both ends. -/
theorem test_witness_pcMod :
    0 ≤ ((0xFFFFFFFF : Word) + 1).toInt ∧ ((0xFFFFFFDF : Word) + 1).toInt % 32 = 0 ∧
    (((0xFFFFFFFE : Word) + 1).toInt < 0 ∧ ((0xFFFFFFFE : Word) + 1).toInt % 32 ≠ 0) ∧
    (((0x80000000 : Word) + 1).toInt < 0 ∧ ((0x80000000 : Word) + 1).toInt % 32 ≠ 0) := by decide

/-- FetchOutsideTheStoreRaisesDecodeAccessFault. -/
theorem test_witness_fetch_outside :
    (core 5 0xFFFFFFFE []).halted = false ∧ (core 5 0xFFFFFFFE []).cycles + 1 < 2 ^ 32 ∧
    ((core 5 0xFFFFFFFE []).pc + 1).toInt < 0 ∧ ((core 5 0xFFFFFFFE []).pc + 1).toInt % 32 ≠ 0 := by decide

/-- EveryCycleCompletesWithoutRunTimeError, CycleRefinesTheSpecPseudocode and PcAfterACycleFollowsTheTable, whose CMP clause
has a negative and a non-negative `ACC`. -/
theorem test_witness_running :
    State.reset.halted = false ∧ State.reset.cycles + 1 < 2 ^ 32 ∧
    ((core 0x80000000 30 [(31, 0xC000)]).nextInstr = .cmp 0 ∧ (core 0x80000000 30 [(31, 0xC000)]).acc.toInt < 0) ∧
    ((core 0 30 [(31, 0xC000)]).nextInstr = .cmp 0 ∧ ¬ (core 0 30 [(31, 0xC000)]).acc.toInt < 0) := by decide

/-- StepRunsTheDecodedInstruction, at the wrap. -/
theorem test_witness_step_runs :
    (core 3 31 [(0, 0x0000A000)]).halted = false ∧ (core 3 31 [(0, 0x0000A000)]).cycles + 1 < 2 ^ 32 ∧
    decode ((core 3 31 [(0, 0x0000A000)]).store.read (((core 3 31 [(0, 0x0000A000)]).pc.toNat + 1) % 32)) = .sub2 0 := by
  decide

/-- HaltedCoreExecutesNoCycle and OnlyResetLeavesTheHaltedState, the reset clause and the other. -/
theorem test_witness_halted :
    stopped.halted = true ∧ hostStep .reset stopped = some (.done, State.reset) ∧
    hostStep (.poke 31 1) stopped = some (.done, stopped.memWrite 31 1) ∧ HostOp.poke 31 1 ≠ .reset := by decide

/-- CountOfTwoToThe32CyclesIsRefused. -/
theorem test_witness_full_count :
    ({ State.reset with cycles := 2 ^ 32 - 1 } : State).halted = false ∧
    ({ State.reset with cycles := 2 ^ 32 - 1 } : State).cycles = 2 ^ 32 - 1 := by decide

/-- NoCycleReadsTheStatusRegisters: two states that differ in all three status registers. -/
theorem test_witness_same_architecture :
    State.reset.sameArchitecture { State.reset with cycles := 9, haltCause := .stop, faultAddr := 1 } ∧
    State.reset.halted = false ∧ State.reset.cycles + 1 < 2 ^ 32 ∧ 9 + 1 < 2 ^ 32 :=
  ⟨⟨rfl, rfl, rfl, fun _ => rfl⟩, by decide, by decide, by decide⟩

/-- JrpAddsTheMemoryWordToPc, the clause without overflow at its ends, and LdnLoadsTheNegatedWord's overflow clause. -/
theorem test_witness_jrp_ldn :
    ((0 : Word).toInt + (0x80000000 : Word).toInt = -2 ^ 31 ∧ (31 : Word).toInt + (0x7FFFFFE0 : Word).toInt = 2 ^ 31 - 1) ∧
    (core 0 0 [(9, 0x80000000)]).memRead 9 = 0x80000000 := by decide

/-- CmpSkipsExactlyWhenNegative: both branches at the boundary. -/
theorem test_witness_cmp :
    (core 0xFFFFFFFF 0 []).acc.toInt < 0 ∧ ¬ (core 0 0 []).acc.toInt < 0 := by decide

/-- StoredWordIsTheNextInstructionFetched: STO 2 at address 1. -/
theorem test_witness_self_modifying :
    (core 0xE000 0 [(1, 0x6002)]).halted = false ∧ (core 0xE000 0 [(1, 0x6002)]).cycles + 2 < 2 ^ 32 ∧
    decode ((core 0xE000 0 [(1, 0x6002)]).memRead (core 0xE000 0 [(1, 0x6002)]).nextFetch) = .sto 2 ∧
    (2 : Addr).toNat = ((core 0xE000 0 [(1, 0x6002)]).nextFetch.toNat + 1) % 32 := by decide

/-- StepWritesOnlyWhatItsInstructionMay and StepKeepsTheInvariant: a step that changes `ACC`, one that changes a word, one
that halts. -/
theorem test_witness_step_writes :
    ((nextOf (step (core 0 0 [(1, 0x4001)]))).map (fun t => decide (t.acc ≠ 0)) = some true) ∧
    ((nextOf (step (core 9 0 [(1, 0x6005)]))).map (fun t => decide (t.store.read 5 ≠ 0)) = some true) ∧
    ((nextOf (step (core 0 0 [(1, 0xE000)]))).map (·.halted) = some true) := by decide

theorem test_witness_invariant_and_step :
    afterSto.Inv ∧ afterSto.noRunError ∧ (nextOf (step afterSto)).isSome = true :=
  ⟨afterSto_inv, .inl rfl, by decide⟩

/-- HaltingCycleOnlyAdvancesPc: by STP, and by a decode access fault under `trunc`. -/
theorem test_witness_halting_cycle :
    (nextOf (issueCycle .euclid (core 7 0 [(1, 0xE000)]))).map (·.halted) = some true ∧
    (nextOf (issueCycle .trunc (core 7 0xFFFFFFFE []))).map (·.halted) = some true := by decide

/-- HostOperationsKeepTheInvariant: a poke into a state of the invariant. -/
theorem test_witness_host_invariant :
    afterSto.Inv ∧ hostStep (.poke 5 0) afterSto = some (.done, core 42 1 [(1, 0x00006005)]) :=
  ⟨afterSto_inv, by decide⟩

/-- RunEndsHaltedOrWithTheBudgetUsed and BoundedRunAlwaysEnds: a run that halts in its last cycle, and one that uses its
budget up. -/
theorem test_witness_runs :
    run ⟨true, 1⟩ 1 (core 7 0 [(1, 0x0000E000)]) = .ended stopped ∧
    run ⟨true, 2⟩ 2 State.reset = .ended { State.reset with cycles := 2 } := by decide

/-- SuccessiveRunsCompose, with the largest budgets on a halted core and with small ones on a running one. -/
theorem test_witness_successive_runs :
    (0x7FFFFFFF : Word).toNat + (0x80000000 : Word).toNat < 2 ^ 32 ∧
    runBounded 1 State.reset = .ended { State.reset with cycles := 1 } ∧
    runBounded 2 { State.reset with cycles := 1 } = .ended { State.reset with cycles := 2 } := by decide

/-- HistoricalBitStringRoundTrips: a string of 32 bits. -/
theorem test_witness_bit_string :
    (List.replicate 32 '1').length = 32 ∧ ∀ c ∈ List.replicate 32 '1', c = '0' ∨ c = '1' :=
  ⟨rfl, fun _ hc => .inr (List.eq_of_mem_replicate hc)⟩

/-- SnapshotLineLoadsItsWord at the last index, with a comment. -/
theorem test_witness_snapshot :
    31 < 32 ∧ snapshotLine .narrow 31 (decimal 31 ++ ':' :: ' ' :: hist 7 ++ ' ' :: ';' :: "x".toList) = .word 7 := by decide

/-- NumEmitsItsOperandVerbatim: the least and the greatest operand. -/
theorem test_witness_num :
    readInt32 .narrow "-2147483648".toList = some (-2147483648) ∧ readInt32 .narrow "2147483647".toList = some 2147483647 ∧
    readInt32 .narrow "2147483648".toList = none ∧ readInt32 .wide "+2147483647".toList = some 2147483647 := by decide

/-- AcceptedAssemblyHasContiguousIndices: an accepted text, with a comment line and a blank line. -/
theorem test_witness_assembly :
    loadAssembly "; two lines\n0 NUM 7\n\n1 STP".toList = .image (padImage [7, 0xE000]) := rfl

/-- TextOfTheGivenFormLoads: a text of each format that loads, and one that fails. -/
theorem test_witness_given_form :
    loadAs (asmLine .narrow) "0 STP".toList = .ok (padImage [0xE000]) ∧
    loadAs (snapshotLine .narrow) ("0: ".toList ++ hist 7) = .ok (padImage [7]) ∧
    loadAssembly "1 STP".toList = .failed (.nonContiguousIndex 0) "1 STP".toList ∧
    loadSnapshot "0 : 1".toList = .failed (.wrongLength 1) "0 : 1".toList := ⟨rfl, rfl, rfl, rfl⟩

end Sys2Proof.Tests
end

/-! ### Laws of the Store, the host's access to it and the invariant -/

namespace Sys2Proof.Machine

/-- A Store word that differs from the unlisted value stands in a cell. -/
theorem Memory.mem_of_read_ne {m : Memory} {a : Nat} (h : m.read a ≠ Memory.unlisted) : (a, m.read a) ∈ m := by
  induction m with
  | nil => exact absurd (Memory.read_nil a) h
  | cons c m ih =>
    obtain ⟨k, x⟩ := c
    rw [Memory.read_cons] at h ⊢
    by_cases hk : k = a
    · simp [hk]
    · rw [if_neg hk] at h ⊢
      exact List.mem_cons_of_mem _ (ih h)

/-- In a Store with rising addresses every cell is the one its address reads. -/
theorem Memory.read_of_mem {m : Memory} (h : m.Pairwise fun c d => c.1 < d.1) {c : Nat × Word} (hc : c ∈ m) :
    m.read c.1 = c.2 := by
  induction m with
  | nil => cases hc
  | cons d m ih =>
    obtain ⟨hlt, htail⟩ := List.pairwise_cons.mp h
    rw [Memory.read_cons]
    rcases List.mem_cons.mp hc with rfl | hc
    · exact if_pos rfl
    · rw [if_neg (hlt c hc).ne, ih htail hc]

/-- A canonical Store has every cell of a canonical Store whose words it shares. -/
theorem Memory.subset_of_read_eq {m m' : Memory} (hm : m.wf = true)
    (h : ∀ a : Addr, m.read a.toNat = m'.read a.toNat) : m ⊆ m' := by
  obtain ⟨hsorted, hcell⟩ := (Memory.wf_iff m).mp hm
  intro c hc
  obtain ⟨hin, hne⟩ := hcell c hc
  have hread : m'.read c.1 = c.2 := by
    have hword := h (BitVec.ofNatLT c.1 hin)
    rw [BitVec.toNat_ofNatLT, Memory.read_of_mem hsorted hc] at hword
    exact hword.symm
  have hmem := Memory.mem_of_read_ne (m := m') (a := c.1) (by rwa [hread])
  rwa [hread] at hmem

/-- Canonical Stores are determined by their 32 words (R32, log 15). -/
theorem Memory.ext_of_wf {m m' : Memory} (hm : m.wf = true) (hm' : m'.wf = true)
    (h : ∀ a : Addr, m.read a.toNat = m'.read a.toNat) : m = m' := by
  have hsorted := ((Memory.wf_iff m).mp hm).1
  have hsorted' := ((Memory.wf_iff m').mp hm').1
  have hnodup : ∀ {l : Memory}, (l.Pairwise fun c d => c.1 < d.1) → l.Nodup :=
    fun hl => hl.imp fun hlt => ne_of_apply_ne Prod.fst hlt.ne
  have hperm : m.Perm m' := (List.perm_ext_iff_of_nodup (hnodup hsorted) (hnodup hsorted')).mpr fun _ =>
    ⟨fun hc => Memory.subset_of_read_eq hm h hc, fun hc => Memory.subset_of_read_eq hm' (fun a => (h a).symm) hc⟩
  exact hperm.eq_of_pairwise (fun _ _ _ _ hlt hgt => absurd hlt hgt.asymm) hsorted hsorted'

/-- Between states of the invariant, architectural agreement is equality of the four elements (R28, R32). -/
theorem State.sameArchitecture_iff_of_inv {s t : State} (hs : s.Inv) (ht : t.Inv) :
    s.sameArchitecture t ↔ s.acc = t.acc ∧ s.pc = t.pc ∧ s.halted = t.halted ∧ s.store = t.store := by
  constructor
  · rintro ⟨hacc, hpc, hhalted, hwords⟩
    exact ⟨hacc, hpc, hhalted, Memory.ext_of_wf hs.storeWf ht.storeWf hwords⟩
  · rintro ⟨hacc, hpc, hhalted, hstore⟩
    exact ⟨hacc, hpc, hhalted, fun a => congrArg (Memory.read · a.toNat) hstore⟩

/-! #### Poke and peek -/

theorem State.poke_of_lt (s : State) {addr : Nat} (h : addr < 32) (v : Word) :
    s.poke addr v = (.done, s.memWrite (BitVec.ofNat 5 addr) v) := if_pos h

theorem State.poke_of_ge (s : State) {addr : Nat} (h : 32 ≤ addr) (v : Word) : s.poke addr v = (.refused, s) :=
  if_neg h.not_gt

theorem State.peek_of_lt (s : State) {addr : Nat} (h : addr < 32) : s.peek addr = (.word (s.store.read addr), s) := by
  have hnat : (BitVec.ofNat 5 addr).toNat = addr := Nat.mod_eq_of_lt h
  rw [State.peek, if_pos h, State.memRead, hnat]

theorem State.peek_of_ge (s : State) {addr : Nat} (h : 32 ≤ addr) : s.peek addr = (.refused, s) := if_neg h.not_gt

/-- What a Store word reads as after a poke. -/
theorem State.read_memWrite_ofNat (s : State) {addr : Nat} (h : addr < 32) (v : Word) (b : Nat) :
    (s.memWrite (BitVec.ofNat 5 addr) v).store.read b = if b = addr then v else s.store.read b := by
  have hnat : (BitVec.ofNat 5 addr).toNat = addr := Nat.mod_eq_of_lt h
  rw [State.memWrite_store, Memory.read_write, hnat]

/-- A peek replies with the word, or the refusal, that the address has in any Store agreeing there. -/
theorem State.peek_of_read_eq {s t : State} {b : Nat} (h : t.store.read b = s.store.read b) :
    t.peek b = ((s.peek b).1, t) := by
  rcases lt_or_ge b 32 with hb | hb
  · rw [t.peek_of_lt hb, s.peek_of_lt hb, h]
  · rw [t.peek_of_ge hb, s.peek_of_ge hb]

/-! #### What an execute phase may write -/

section
variable {i : Instr} {s u : State} (hu : exec i s = .next u)
include hu

/-- `ACC` is written by LDN, SUB and SUB2 only (R20). -/
theorem exec_acc_cases : u.acc = s.acc ∨ ∃ n, i = .ldn n ∨ i = .sub n ∨ i = .sub2 n := by
  rw [exec_eq] at hu
  cases i with
  | ldn n => exact .inr ⟨n, .inl rfl⟩
  | sub n => exact .inr ⟨n, .inr (.inl rfl)⟩
  | sub2 n => exact .inr ⟨n, .inr (.inr rfl)⟩
  | _ => cases hu; exact .inl rfl

/-- The Store is written by STO only (R22, R131). -/
theorem exec_store_cases : u.store = s.store ∨ ∃ n, i = .sto n ∧ u = s.memWrite n s.acc := by
  rw [exec_eq] at hu
  cases i with
  | sto n => cases hu; exact .inr ⟨n, rfl, rfl⟩
  | _ => cases hu; exact .inl rfl

/-- The halted flag and the status registers are written by STP only, which writes nothing else (R155). -/
theorem exec_status_cases : s.sameStatus u ∨ ∃ n, i = .stp n ∧ u = s.halt := by
  rw [exec_eq] at hu
  cases i with
  | stp n => cases hu; exact .inr ⟨n, rfl, rfl⟩
  | _ => cases hu; exact .inl ⟨rfl, rfl, rfl, rfl⟩

/-- No instruction writes `CYCLES` or `FAULT_ADDR`. -/
theorem exec_count_and_faultAddr : u.cycles = s.cycles ∧ u.faultAddr = s.faultAddr := by
  rcases exec_status_cases hu with ⟨-, -, hfault, hcycles⟩ | ⟨n, -, rfl⟩
  · exact ⟨hcycles, hfault⟩
  · exact ⟨rfl, rfl⟩

/-- An execute phase that halts a running core has done nothing else. -/
theorem eq_halt_of_exec_halts (hs : s.halted = false) (hhalt : u.halted = true) : u = s.halt := by
  rcases exec_status_cases hu with ⟨hhalted, -⟩ | ⟨n, -, h⟩
  · rw [hhalted, hs] at hhalt
    cases hhalt
  · exact h

end

/-! #### Cycles under either reading of `PC_MOD` -/

/-- Everything an issued cycle that answers a next state has done, under either reading. -/
theorem issueCycle_cases {m : PcMod} {s t : State} (h : issueCycle m s = .next t) :
    s.halted = false ∧ ∃ u, decodeExecute (s.fetchAdvance m) = .next u ∧ t = u.countCycle := by
  unfold issueCycle cycle at h
  split at h
  · cases h
  · rename_i hh
    split at h
    · cases hu : decodeExecute (s.fetchAdvance m) with
      | next u =>
        rw [hu] at h
        cases h
        exact ⟨by simpa using hh, u, rfl, rfl⟩
      | fault r => rw [hu] at h; cases h
      | refused r => rw [hu] at h; cases h
    · cases h

/-- The decode and execute phases execute a fetched word or raise a decode access fault. -/
theorem decodeExecute_cases {s u : State} (h : decodeExecute s = .next u) :
    (∃ i, exec i s = .next u) ∨ u = s.raise (.decodeAccess s.pc) := by
  unfold decodeExecute at h
  split at h
  · exact .inl ⟨_, h⟩
  · cases h
    exact .inr rfl

/-- Decode and execute phases that halt a running core halt it by STP or by a decode access fault, with no other effect. -/
theorem decodeExecute_halt_cases {s u : State} (h : decodeExecute s = .next u) (hs : s.halted = false)
    (hhalt : u.halted = true) : u = s.halt ∨ u = s.raise (.decodeAccess s.pc) := by
  rcases decodeExecute_cases h with ⟨i, hi⟩ | hraise
  · exact .inl (eq_halt_of_exec_halts hi hs hhalt)
  · exact .inr hraise

/-- The step that would make `CYCLES` 2^32 is refused (D6, log 6). -/
theorem issueCycle_of_count_full {s : State} (m : PcMod) (hh : s.halted = false)
    (hc : ¬ s.cycles + 1 < 2 ^ Config.cycleWidth) : issueCycle m s = .refused .cycleCountOverflow := by
  rw [issueCycle, if_neg (by simp [hh]), if_neg hc]

/-! #### Architectural agreement -/

section
variable {s s' : State} (h : s.sameArchitecture s')
include h

theorem State.sameArchitecture.setPc {v v' : Word} (hv : v = v') : (s.setPc v).sameArchitecture (s'.setPc v') := by
  obtain ⟨hacc, -, hhalted, hwords⟩ := h
  exact ⟨hacc, hv, hhalted, hwords⟩

theorem State.sameArchitecture.setAcc {v v' : Word} (hv : v = v') :
    (s.setAcc v).sameArchitecture (s'.setAcc v') := by
  obtain ⟨-, hpc, hhalted, hwords⟩ := h
  exact ⟨hv, hpc, hhalted, hwords⟩

theorem State.sameArchitecture.memWrite (n : Addr) {v v' : Word} (hv : v = v') :
    (s.memWrite n v).sameArchitecture (s'.memWrite n v') := by
  obtain ⟨hacc, hpc, hhalted, hwords⟩ := h
  refine ⟨hacc, hpc, hhalted, fun a => ?_⟩
  have hword : s.store.read a.toNat = s'.store.read a.toNat := hwords a
  simp only [State.memRead, State.memWrite_store, Memory.read_write, hword, hv]

theorem State.sameArchitecture.halt : s.halt.sameArchitecture s'.halt := by
  obtain ⟨hacc, hpc, -, hwords⟩ := h
  exact ⟨hacc, hpc, rfl, hwords⟩

theorem State.sameArchitecture.nextFetch_eq : s.nextFetch = s'.nextFetch := by
  obtain ⟨-, hpc, -, -⟩ := h
  rw [State.nextFetch, State.nextFetch, hpc]

theorem State.sameArchitecture.nextInstr_eq : s.nextInstr = s'.nextInstr := by
  have hfetch := h.nextFetch_eq
  obtain ⟨-, -, -, hwords⟩ := h
  rw [State.nextInstr, State.nextInstr, hwords, hfetch]

theorem State.sameArchitecture.atFetch : s.atFetch.sameArchitecture s'.atFetch :=
  h.setPc (by rw [h.nextFetch_eq])

/-- The execute phase reads `ACC`, `PC` and the Store only (R28). -/
theorem State.sameArchitecture.exec (i : Instr) :
    ∃ u u', exec i s = .next u ∧ exec i s' = .next u' ∧ u.sameArchitecture u' := by
  refine ⟨_, _, exec_eq i s, exec_eq i s', ?_⟩
  have ⟨hacc, hpc, _, hwords⟩ := h
  cases i with
  | jmp n => exact h.setPc (hwords n)
  | jrp n => exact h.setPc (by rw [hpc, hwords n])
  | ldn n => exact h.setAcc (by rw [hwords n])
  | sto n => exact h.memWrite n hacc
  | sub n => exact h.setAcc (by rw [hacc, hwords n])
  | sub2 n => exact h.setAcc (by rw [hacc, hwords n])
  | cmp n => exact h.setPc (by rw [hacc, hpc])
  | stp n => exact h.halt

end

/-! #### The invariant -/

section
variable {s : State} (h : s.Inv)
include h

/-- The invariant speaks of the Store's form and the status registers only. -/
theorem State.Inv.of_sameStatus {t : State} (hwf : t.store.wf = true) (hst : s.sameStatus t) : t.Inv := by
  obtain ⟨hhalted, hcause, hfault, hcycles⟩ := hst
  refine ⟨hwf, ?_, ?_, ?_⟩
  · rw [hhalted, hcause]
    exact h.haltedIffCause
  · rw [hcause, hfault]
    exact h.faultAddrOfCause
  · rw [hcycles]
    exact h.cyclesFit

theorem State.Inv.memWrite (n : Addr) (v : Word) : (s.memWrite n v).Inv :=
  h.of_sameStatus (Memory.wf_write h.storeWf n.isLt v) ⟨rfl, rfl, rfl, rfl⟩

theorem State.Inv.loadImage (img : Image) : (s.loadImage img).Inv :=
  h.of_sameStatus (Memory.wf_ofImage img) ⟨rfl, rfl, rfl, rfl⟩

theorem State.Inv.atFetch : s.atFetch.Inv := h.of_sameStatus h.storeWf ⟨rfl, rfl, rfl, rfl⟩

theorem State.Inv.countCycle (hc : s.cycles + 1 < 2 ^ Config.cycleWidth) : s.countCycle.Inv :=
  ⟨h.storeWf, h.haltedIffCause, h.faultAddrOfCause, hc⟩

theorem State.Inv.startRun : s.startRun.Inv :=
  ⟨h.storeWf, h.haltedIffCause, h.faultAddrOfCause, by simp⟩

/-- A running core has recorded no cause, so its `FAULT_ADDR` is 0 when STP halts it. -/
theorem State.Inv.halt (hh : s.halted = false) : s.halt.Inv := by
  have hnone : s.haltCause = .none := by
    by_contra hne
    rw [h.haltedIffCause.mpr hne] at hh
    cases hh
  exact ⟨h.storeWf, by simp, fun _ => h.faultAddrOfCause (by simp [hnone]), h.cyclesFit⟩

/-- Every execute phase of a running core keeps the invariant. -/
theorem State.Inv.exec {i : Instr} {u : State} (hh : s.halted = false) (hu : exec i s = .next u) : u.Inv := by
  rcases exec_status_cases hu with hstatus | ⟨n, -, rfl⟩
  · rcases exec_store_cases hu with hstore | ⟨n, -, rfl⟩
    · exact h.of_sameStatus (by rw [hstore]; exact h.storeWf) hstatus
    · exact h.memWrite n s.acc
  · exact h.halt hh

/-- Every step keeps the invariant (R26, R27). -/
theorem State.Inv.step {t : State} (ht : step s = .next t) : t.Inv := by
  obtain ⟨hh, hc, u, hu, rfl⟩ := step_cases ht
  have hcycles : u.cycles = s.cycles := (exec_count_and_faultAddr hu).1
  exact (h.atFetch.exec hh hu).countCycle (by rwa [hcycles])

theorem State.Inv.run {b : Budget} {patience : Nat} {t : State} (ht : run b patience s = .ended t) : t.Inv :=
  runLoop_keeps (fun _ _ hi hst => hi.step hst) h.startRun ht

end

theorem State.inv_reset : State.reset.Inv := ⟨Memory.wf_nil, by decide, fun _ => rfl, by decide⟩

/-- No step raises a run-time error under `euclid` (R175; D2, log 2). -/
theorem step_keeps_noRunError {s t : State} (hs : s.noRunError) (ht : step s = .next t) : t.noRunError := by
  obtain ⟨-, -, u, hu, rfl⟩ := step_cases ht
  rcases exec_status_cases hu with ⟨-, hcause, -, -⟩ | ⟨n, -, rfl⟩
  · rw [State.noRunError, State.countCycle_haltCause, hcause]
    exact hs
  · exact .inr rfl

theorem run_keeps_noRunError {b : Budget} {patience : Nat} {s t : State} (hs : s.noRunError)
    (ht : run b patience s = .ended t) : t.noRunError :=
  runLoop_keeps (P := State.noRunError) (fun _ _ => step_keeps_noRunError) (s := s.startRun) hs ht

/-! #### Host operations -/

theorem hostStep_run_iff {b : Budget} {patience : Nat} {s t : State} {r : HostReply} :
    hostStep (.run b patience) s = some (r, t) ↔ run b patience s = .ended t ∧ r = .count t.cycles := by
  simp only [hostStep]
  cases run b patience s with
  | ended u =>
    simp only [Option.some.injEq, Prod.mk.injEq, RunResult.ended.injEq]
    constructor
    · rintro ⟨rfl, rfl⟩
      exact ⟨rfl, rfl⟩
    · rintro ⟨rfl, rfl⟩
      exact ⟨rfl, rfl⟩
  | unfinished u => simp
  | stuck f => simp
  | refused f => simp

theorem State.poke_cases (s : State) (addr : Nat) (v : Word) :
    (s.poke addr v).2 = s ∨ ∃ a, (s.poke addr v).2 = s.memWrite a v := by
  rcases lt_or_ge addr 32 with h | h
  · exact .inr ⟨_, by rw [s.poke_of_lt h]⟩
  · exact .inl (by rw [s.poke_of_ge h])

theorem State.peek_snd (s : State) (addr : Nat) : (s.peek addr).2 = s := by
  rcases lt_or_ge addr 32 with h | h
  · rw [s.peek_of_lt h]
  · rw [s.peek_of_ge h]

/-- Every state a host operation that answers can leave (R31). -/
theorem hostStep_cases {op : HostOp} {s t : State} {r : HostReply} (h : hostStep op s = some (r, t)) :
    t = s ∨ (op = .reset ∧ t = State.reset) ∨ (∃ img, t = s.loadImage img) ∨ (∃ a v, t = s.memWrite a v) ∨
      ∃ b patience, run b patience s = .ended t := by
  cases op with
  | reset => cases h; exact .inr (.inl ⟨rfl, rfl⟩)
  | loadImage img => cases h; exact .inr (.inr (.inl ⟨img, rfl⟩))
  | poke addr v =>
    obtain rfl : (s.poke addr v).2 = t := congrArg Prod.snd (Option.some.inj h)
    rcases s.poke_cases addr v with hsame | ⟨a, hwrite⟩
    · exact .inl hsame
    · exact .inr (.inr (.inr (.inl ⟨a, v, hwrite⟩)))
  | peek addr =>
    obtain rfl : (s.peek addr).2 = t := congrArg Prod.snd (Option.some.inj h)
    exact .inl (s.peek_snd addr)
  | run b patience => exact .inr (.inr (.inr (.inr ⟨b, patience, (hostStep_run_iff.mp h).1⟩)))
  | _ => cases h; exact .inl rfl

/-- A run given to a halted core only clears the count (R105, R106). -/
theorem run_of_halted {s : State} (h : s.halted = true) (b : Budget) (patience : Nat) :
    run b patience s = .ended s.startRun :=
  runLoop_of_stops (by simp [runContinues, h]) patience

/-! ### The statements of 10_state.md -/

/-- Settles O40: an execute phase writes the Store canonically, and the status registers only by STP. -/
theorem stepKeepsTheInvariant : Obligations.StepKeepsTheInvariant :=
  fun _ _ hs ht => ⟨hs.step ht, fun herr => step_keeps_noRunError herr ht⟩

/-- Settles O41: by the operation; a run keeps what its steps keep. -/
theorem hostOperationsKeepTheInvariant : Obligations.HostOperationsKeepTheInvariant := by
  intro op s t r hs h
  rcases hostStep_cases h with rfl | ⟨-, rfl⟩ | ⟨img, rfl⟩ | ⟨a, v, rfl⟩ | ⟨b, patience, hrun⟩
  · exact ⟨hs, id⟩
  · exact ⟨State.inv_reset, fun _ => .inl rfl⟩
  · exact ⟨hs.loadImage img, id⟩
  · exact ⟨hs.memWrite a v, id⟩
  · exact ⟨hs.run hrun, fun herr => run_keeps_noRunError herr hrun⟩

/-- Settles O10: a canonical Store is determined by its words. -/
theorem storesAreEqualIffWordsAreEqual : Obligations.StoresAreEqualIffWordsAreEqual := by
  refine ⟨fun m m' hm hm' => ⟨?_, Memory.ext_of_wf hm hm'⟩, fun s t => State.sameArchitecture_iff_of_inv⟩
  rintro rfl a
  rfl

/-- Settles O11: in range by read after write, out of range by the refusal. -/
theorem hostPokeAndPeekStayInsideTheStore : Obligations.HostPokeAndPeekStayInsideTheStore := by
  intro s addr v
  constructor
  · intro h
    have hread := s.read_memWrite_ofNat h v
    refine ⟨s.memWrite (BitVec.ofNat 5 addr) v, congrArg some (s.poke_of_lt h v), ?_, rfl, rfl, ⟨rfl, rfl, rfl, rfl⟩, ?_⟩
    · rw [hostStep, State.peek_of_lt _ h, hread, if_pos rfl]
    · intro b hb
      exact congrArg some (State.peek_of_read_eq (by rw [hread, if_neg hb]))
  · intro h
    exact ⟨congrArg some (s.poke_of_ge h v), congrArg some (s.peek_of_ge h)⟩

/-- Settles O22: both cores fetch the same instruction, and the execute phase keeps their agreement. -/
theorem noCycleReadsTheStatusRegisters : Obligations.NoCycleReadsTheStatusRegisters := by
  intro s s' h hh hc hc'
  have hh' : s'.halted = false := by
    obtain ⟨-, -, hhalted, -⟩ := h
    rw [← hhalted, hh]
  obtain ⟨u, u', hu, hu', hsame⟩ := h.atFetch.exec s.nextInstr
  rw [h.nextInstr_eq] at hu'
  exact ⟨u.countCycle, u'.countCycle, step_of_exec hh hc hu, step_of_exec hh' hc' hu', hsame⟩

/-- Settles O32: by what the execute phase may write to each element. -/
theorem stepWritesOnlyWhatItsInstructionMay : Obligations.StepWritesOnlyWhatItsInstructionMay := by
  intro s t ht
  obtain ⟨-, -, u, hu, rfl⟩ := step_cases ht
  refine ⟨(exec_acc_cases hu).resolve_left, fun a ha => ?_, fun hne => ?_, (exec_count_and_faultAddr hu).2⟩
  · rcases exec_store_cases hu with hstore | ⟨n, hi, rfl⟩
    · exact absurd (congrArg (Memory.read · a) hstore) ha
    · have hread := Memory.read_write s.store n.toNat a s.acc
      by_cases han : a = n.toNat
      · exact ⟨n, hi, han, hread.trans (if_pos han)⟩
      · exact absurd (hread.trans (if_neg han)) ha
  · rcases exec_status_cases hu with ⟨hhalted, hcause, -, -⟩ | ⟨n, hi, -⟩
    · exact (hne.elim (· hhalted) (· hcause)).elim
    · exact ⟨n, hi⟩

/-- Settles O34: such a cycle is fetch/advance, then STP's halt or a decode access fault. -/
theorem haltingCycleOnlyAdvancesPc : Obligations.HaltingCycleOnlyAdvancesPc := by
  intro m s t h hhalt
  obtain ⟨hh, u, hu, rfl⟩ := issueCycle_cases h
  rcases decodeExecute_halt_cases hu hh hhalt with rfl | rfl
  · exact ⟨rfl, fun _ => rfl, rfl, rfl, .inl ⟨rfl, rfl⟩⟩
  · exact ⟨rfl, fun _ => rfl, rfl, rfl, .inr ⟨rfl, rfl⟩⟩

/-- Settles O35: by the operation; a run given to a halted core issues no cycle. -/
theorem onlyResetLeavesTheHaltedState : Obligations.OnlyResetLeavesTheHaltedState := by
  intro op s t r hh h
  split
  · rename_i hop
    subst hop
    cases h
    exact ⟨rfl, rfl⟩
  · rename_i hop
    rcases hostStep_cases h with rfl | ⟨hreset, -⟩ | ⟨img, rfl⟩ | ⟨a, v, rfl⟩ | ⟨b, patience, hrun⟩
    · exact ⟨hh, rfl, rfl, rfl, rfl⟩
    · exact absurd hreset hop
    · exact ⟨hh, rfl, rfl, rfl, rfl⟩
    · exact ⟨hh, rfl, rfl, rfl, rfl⟩
    · rw [run_of_halted hh] at hrun
      cases hrun
      exact ⟨hh, rfl, rfl, rfl, rfl⟩

/-- Settles O37: a loaded Store is canonical and reads as its image. -/
theorem everyElementIsDefinedAfterResetAndLoad : Obligations.EveryElementIsDefinedAfterResetAndLoad := by
  refine ⟨⟨rfl, rfl, rfl, fun a => Memory.read_nil a.toNat⟩, fun s img => ⟨s.loadImage img, rfl, fun a => ?_, ?_⟩⟩
  · exact Memory.read_ofImage img a.isLt
  · exact ⟨Memory.wf_ofImage img, rfl, rfl, rfl, rfl, rfl, rfl⟩

/-- Settles O19: the count has no room for one more cycle. -/
theorem countOfTwoToThe32CyclesIsRefused : Obligations.CountOfTwoToThe32CyclesIsRefused := by
  intro s hh hc
  exact issueCycle_of_count_full pcMod hh (by rw [hc]; decide)

end Sys2Proof.Machine

/-! ### Laws of reads after writes, and of the step of STO -/

namespace Sys2Proof.Machine

/-- What every `MemRead` gives after a `MemWrite` (R58). -/
theorem State.memRead_memWrite (s : State) (a b : Addr) (v : Word) :
    (s.memWrite a v).memRead b = if b = a then v else s.memRead b := by
  have hread : (s.memWrite a v).memRead b = if b.toNat = a.toNat then v else s.memRead b :=
    Memory.read_write s.store a.toNat b.toNat v
  simpa only [BitVec.toNat_inj] using hread

/-- An instruction fetch reads the Store word `PC` names (R58, R61). -/
theorem State.fetchWord_of_pc {s : State} {a : Addr} (h : s.pc = a.setWidth 32) :
    s.fetchWord = some (s.memRead a) := by
  have hfetch := fetchWord_setPc s a
  rwa [← h] at hfetch

theorem fetchAdvance_pcMod (s : State) : s.fetchAdvance pcMod = s.atFetch := by
  rw [fetchAdvance_eq, reducePc_pcMod, State.atFetch]

/-- A core whose `PC` is a Store address fetches next at the address after it, modulo the size of the Store (R101). -/
theorem nextFetch_toNat_of_pc {s : State} {a : Addr} (h : s.pc = a.setWidth 32) :
    s.nextFetch.toNat = (a.toNat + 1) % 32 := by
  rw [nextFetch_toNat, h, BitVec.toNat_setWidth, Nat.mod_eq_of_lt (Nat.lt_trans a.isLt (by decide))]

/-- The step of STO: fetch/advance, the store of `ACC`, and the count (R131). -/
theorem step_of_sto {s : State} {n : Addr} (hh : s.halted = false) (hc : s.cycles + 1 < 2 ^ Config.cycleWidth)
    (hi : s.nextInstr = .sto n) : step s = .next (s.atFetch.memWrite n s.acc).countCycle :=
  step_of_exec hh hc (by rw [hi, exec_eq, State.atFetch_acc])

/-- After that step, the instruction fetched next is the stored word's when STO wrote at the next fetch address (R61). -/
theorem nextInstr_of_sto_next_fetch {s : State} {n : Addr} (hn : n.toNat = (s.nextFetch.toNat + 1) % 32) :
    (s.atFetch.memWrite n s.acc).countCycle.nextInstr = decode s.acc := by
  have haddr : (s.atFetch.memWrite n s.acc).countCycle.nextFetch = n :=
    BitVec.eq_of_toNat_eq ((nextFetch_toNat_of_pc rfl).trans hn.symm)
  have hread : (s.atFetch.memWrite n s.acc).countCycle.memRead n = s.acc :=
    (s.atFetch.memRead_memWrite n n s.acc).trans (if_pos rfl)
  rw [State.nextInstr, haddr, hread]

/-! ### The statements of 20_memory.md -/

/-- Settles O9: by read after write; the fetch is a read at `PC`. -/
theorem memWriteReplacesOneWord : Obligations.MemWriteReplacesOneWord := by
  intro s a v
  have hsame : (s.memWrite a v).memRead a = v := (s.memRead_memWrite a a v).trans (if_pos rfl)
  refine ⟨hsame, fun b hb => (s.memRead_memWrite a b v).trans (if_neg hb), rfl, rfl, ⟨rfl, rfl, rfl, rfl⟩, fun hpc => ?_⟩
  rw [State.fetchWord_of_pc hpc, hsame]

/-- Settles O31: the first step is STO's, and the word it wrote is the one the second step fetches. -/
theorem storedWordIsTheNextInstructionFetched : Obligations.StoredWordIsTheNextInstructionFetched := by
  intro s n hh hc hi hn
  have hroom : s.cycles + 1 + 1 < 2 ^ Config.cycleWidth := hc
  obtain ⟨u, hu, -⟩ := exec_cases (decode s.acc) (s.atFetch.memWrite n s.acc).countCycle.atFetch
  refine ⟨(s.atFetch.memWrite n s.acc).countCycle, u, step_of_sto hh (Nat.lt_of_succ_lt hroom) hi, ?_, ?_⟩
  · rw [fetchAdvance_pcMod, hu]
  · exact step_of_exec hh hroom (by rw [nextInstr_of_sto_next_fetch hn, hu])

end Sys2Proof.Machine

/-! ### Laws of the two fields of a word, and of packing them -/

namespace Sys2Proof

/-- A mask of the low `k` bits keeps those bits, zero-extended. -/
theorem and_lowMask (w : Word) {k : Nat} (hk : k ≤ 32) :
    w &&& BitVec.ofNat 32 (2 ^ k - 1) = (w.setWidth k).setWidth 32 := by
  have hmask : 2 ^ k - 1 < 2 ^ 32 :=
    Nat.lt_of_lt_of_le (Nat.sub_lt (Nat.two_pow_pos k) Nat.one_pos) (Nat.pow_le_pow_right (by decide) hk)
  apply BitVec.eq_of_toNat_eq
  rw [BitVec.toNat_and, BitVec.toNat_ofNat, Nat.mod_eq_of_lt hmask, Nat.and_two_pow_sub_one_eq_mod,
    BitVec.toNat_setWidth_of_le hk, BitVec.toNat_setWidth]

/-- A field shifted down, masked and shifted back is the word under the shifted mask. -/
theorem ushiftRight_and_shiftLeft (w mask : Word) (k : Nat) : ((w >>> k) &&& mask) <<< k = w &&& (mask <<< k) := by
  ext i hi
  by_cases hk : i < k
  · simp [hk]
  · simp [hk, show k + (i - k) = i by omega, BitVec.getLsbD_eq_getElem hi]

/-- Bits 4..0 as the low five bits (R71). -/
theorem operandField_eq_setWidth (w : Word) : operandField w = w.setWidth 5 :=
  (BitVec.setWidth_eq_extractLsb' (by decide)).symm

/-- Bits 15..13 as the low three bits of the shifted word (R72). -/
theorem opcodeField_eq_setWidth (w : Word) : opcodeField w = (w >>> 13).setWidth 3 := by
  ext i hi
  simp [opcodeField, BitVec.getElem_extractLsb']

/-- `operand = w AND 0x1F` (R71). -/
theorem operandField_setWidth (w : Word) : (operandField w).setWidth 32 = w &&& 0x1F := by
  rw [operandField_eq_setWidth]
  exact (and_lowMask w (by decide : 5 ≤ 32)).symm

/-- `code = (w >> 13) AND 7` (R72). -/
theorem opcodeField_setWidth (w : Word) : (opcodeField w).setWidth 32 = (w >>> 13) &&& 0x7 := by
  rw [opcodeField_eq_setWidth]
  exact (and_lowMask (w >>> 13) (by decide : 3 ≤ 32)).symm

/-- The code does not see the bits a right shift brings in (R72). -/
theorem sshiftRight_and_seven (w : Word) : w.sshiftRight 13 &&& (0x7 : Word) = (w >>> 13) &&& 0x7 := by
  have hlow : (w.sshiftRight 13).setWidth 3 = (w >>> 13).setWidth 3 := by
    ext i hi
    simp [BitVec.getElem_sshiftRight, show i < 32 ∧ 13 + i < 32 by omega]
  calc w.sshiftRight 13 &&& (0x7 : Word)
      = ((w.sshiftRight 13).setWidth 3).setWidth 32 := and_lowMask _ (by decide : 3 ≤ 32)
    _ = ((w >>> 13).setWidth 3).setWidth 32 := by rw [hlow]
    _ = (w >>> 13) &&& 0x7 := (and_lowMask _ (by decide : 3 ≤ 32)).symm

/-- Bits 15..13 in their place are the masked word (R70). -/
theorem opcodeField_shiftLeft (w : Word) : (opcodeField w).setWidth 32 <<< 13 = w &&& 0xE000 := by
  rw [opcodeField_setWidth, ushiftRight_and_shiftLeft]
  rfl

/-- Both fields are read back from a packed word (R70). -/
@[simp] theorem opcodeField_packFields (c : BitVec 3) (n : Addr) : opcodeField (packFields c n) = c :=
  (Laws.WordLayout.packFields_layout c n).2.1

@[simp] theorem operandField_packFields (c : BitVec 3) (n : Addr) : operandField (packFields c n) = n :=
  (Laws.WordLayout.packFields_layout c n).1

theorem packFields_and_ignoredBits (c : BitVec 3) (n : Addr) : packFields c n &&& 0xFFFF1FE0 = 0 :=
  (Laws.WordLayout.packFields_layout c n).2.2

@[simp] theorem packFields_inj (c c' : BitVec 3) (n n' : Addr) :
    packFields c n = packFields c' n' ↔ c = c' ∧ n = n' := by
  constructor
  · intro h
    exact ⟨by simpa using congrArg opcodeField h, by simpa using congrArg operandField h⟩
  · rintro ⟨rfl, rfl⟩
    rfl

/-- Packing the fields of a word clears its ignored bits (R74, R79). -/
theorem packFields_fields (w : Word) : packFields (opcodeField w) (operandField w) = w &&& 0xE01F := by
  rw [packFields, opcodeField_shiftLeft, operandField_setWidth, ← BitVec.and_or_distrib_left]
  rfl

/-- The mask of bits 15..13 keeps the code alone. -/
theorem and_opcodeMask (w : Word) : w &&& 0xE000 = packFields (opcodeField w) 0 := by
  rw [← opcodeField_shiftLeft]
  exact BitVec.or_zero.symm

/-- The mask of bits 4..0 keeps the operand alone. -/
theorem and_operandMask (w : Word) : w &&& 0x1F = packFields 0 (operandField w) := by
  rw [← operandField_setWidth]
  exact (BitVec.zero_or).symm

/-- A code and an operand as a number (R79); a finite question, 8 codes by 32 operands. -/
theorem packFields_toNat : ∀ (c : BitVec 3) (n : Addr), (packFields c n).toNat = c.toNat * 2 ^ 13 + n.toNat := by
  decide

/-! ### Laws of the decoder and the assembler's word -/

/-- The row of the opcode table an instruction's code selects is the instruction's own operation (R73). -/
theorem opcodeOf_code (i : Instr) : opcodeOf i.code i.operand = i := by
  cases i <;> rfl

/-- A packed word is the instruction its two fields name. -/
theorem decode_packFields (c : BitVec 3) (n : Addr) : decode (packFields c n) = opcodeOf c n := by
  rw [decode, opcodeField_packFields, operandField_packFields]

/-- Two words are the same instruction exactly when both fields agree. -/
theorem decode_eq_iff (w w' : Word) :
    decode w = decode w' ↔ opcodeField w = opcodeField w' ∧ operandField w = operandField w' := by
  constructor
  · intro h
    exact ⟨by simpa using congrArg Instr.code h, by simpa using congrArg Instr.operand h⟩
  · rintro ⟨hc, hn⟩
    rw [decode, decode, hc, hn]

/-- A word with the code `c` under the opcode mask is `c`'s operation on its low five bits (R73). -/
theorem decode_of_and_opcodeMask {w : Word} (c : BitVec 3) (h : w &&& 0xE000 = packFields c 0) :
    decode w = opcodeOf c (w.setWidth 5) := by
  obtain ⟨hc, -⟩ := (packFields_inj _ _ _ _).mp ((and_opcodeMask w).symm.trans h)
  rw [decode, hc, operandField_eq_setWidth]

/-- The assembler keeps an operand's low five bits and packs them with the code (R82, D11). -/
theorem Machine.asmWord_machine (c : BitVec 3) (n : Int) :
    Machine.asmWord (.machine c) n = packFields c (BitVec.ofInt 5 n) := by
  have hlow : operandField (BitVec.ofInt 32 n) = BitVec.ofInt 5 n := by
    apply BitVec.eq_of_toNat_eq
    rw [operandField_toNat, BitVec.toNat_ofInt, BitVec.toNat_ofInt]
    omega
  rw [packFields, ← hlow, operandField_setWidth]
  rfl

end Sys2Proof

namespace Sys2Proof.Machine

/-- STO's word is read back whole (R58). -/
theorem State.memRead_memWrite_same (s : State) (a : Addr) (v : Word) : (s.memWrite a v).memRead a = v :=
  (s.memRead_memWrite a a v).trans (if_pos rfl)

/-! ### The statements of 30_encoding.md about words -/

/-- Settles O5: the two fields of a packed word are read back, and the table row of a code is the instruction that has
it. -/
theorem decodeOfEncodeIsTheInstruction : Obligations.DecodeOfEncodeIsTheInstruction := by
  intro i _
  rw [encode, decode_packFields, opcodeOf_code]

/-- Settles O1: each field, zero-extended, is the masked word. -/
theorem decodedFieldsAreTheMaskedBits : Obligations.DecodedFieldsAreTheMaskedBits := by
  intro w s
  have haddr : (operandField w).toNat = (w &&& 0x1F).toNat := by
    rw [← operandField_setWidth, BitVec.toNat_setWidth_of_le (by decide)]
  rw [decode_operand, decode_code, sshiftRight_and_seven]
  exact ⟨operandField_setWidth w, congrArg s.store.read haddr, opcodeField_setWidth w, opcodeField_setWidth w⟩

/-- Settles O2: a clause per row of the opcode table; the mask keeps one of the eight codes. -/
theorem opcodeMapBindsAllEightCodes : Obligations.OpcodeMapBindsAllEightCodes := by
  intro w
  have hcodes : ∀ c : BitVec 3, c = 0 ∨ c = 1 ∨ c = 2 ∨ c = 3 ∨ c = 4 ∨ c = 5 ∨ c = 6 ∨ c = 7 := by decide
  refine ⟨decode_of_and_opcodeMask 0, decode_of_and_opcodeMask 1, decode_of_and_opcodeMask 2,
    decode_of_and_opcodeMask 3, decode_of_and_opcodeMask 4, decode_of_and_opcodeMask 5,
    decode_of_and_opcodeMask 6, decode_of_and_opcodeMask 7, ?_⟩
  rw [and_opcodeMask]
  obtain h | h | h | h | h | h | h | h := hcodes (opcodeField w) <;> rw [h] <;> decide

/-- Settles O6: encoding packs the fields the decoder read. -/
theorem encodeOfDecodeClearsOnlyIgnoredBits : Obligations.EncodeOfDecodeClearsOnlyIgnoredBits := by
  intro w
  rw [encode, decode_code, decode_operand, packFields_fields]

/-- Settles O7: the two masks keep the two fields and nothing else, STO, LDN and SUB move whole words, and the assembler
packs fields only. -/
theorem ignoredBitsChangeNoInstructionButAreData : Obligations.IgnoredBitsChangeNoInstructionButAreData := by
  refine ⟨fun w w' => ?_, fun s n => ?_, fun c n => ?_⟩
  · rw [decode_eq_iff, and_opcodeMask w, and_opcodeMask w', and_operandMask w, and_operandMask w',
      packFields_inj, packFields_inj]
    tauto
  · have hread := s.memRead_memWrite_same n s.acc
    refine ⟨_, _, _, exec_eq (.sto n) s, exec_eq (.ldn n) _, exec_eq (.sub n) _, hread, ?_, ?_⟩
    · rw [State.setAcc_acc, hread, neg32]
    · rw [State.setAcc_acc, hread, State.memWrite_acc]
      exact BitVec.sub_self _
  · rw [asmWord_machine, packFields_and_ignoredBits]

/-- Settles O48: the assembled word is a packed pair of fields. -/
theorem assembledWordDecodesToTheNamedOperation : Obligations.AssembledWordDecodesToTheNamedOperation := by
  intro c n
  rw [decode_code, decode_operand, asmWord_machine, opcodeField_packFields, operandField_packFields, BitVec.toNat_ofInt]
  exact ⟨rfl, by omega⟩

/-- Settles O3: a row of the opcode table per word. -/
theorem printedWordsDecodeAsPrinted : Obligations.PrintedWordsDecodeAsPrinted :=
  ⟨rfl, rfl, rfl, rfl, rfl, rfl, rfl, rfl⟩

/-- Settles O4: the two fields do not overlap, so packing them adds. -/
theorem encodedWordIsCodeAndOperand : Obligations.EncodedWordIsCodeAndOperand :=
  fun i => packFields_toNat i.code i.operand

/-- Settles O8: what CMP and STP do names no operand. -/
theorem operandOfCmpAndStpIsUnused : Obligations.OperandOfCmpAndStpIsUnused := by
  intro n n' s
  exact ⟨(exec_eq (.cmp n) s).trans (exec_eq (.cmp n') s).symm, (exec_eq (.stp n) s).trans (exec_eq (.stp n') s).symm⟩

end Sys2Proof.Machine

/-! ### Laws of bit strings -/

namespace Sys2Proof.Machine

/-- Character i of a bit string is bit i of its value (R5). -/
theorem bitsValue_testBit (t : Text) (i : Nat) : (bitsValue t).testBit i = decide (t[i]? = some '1') := by
  induction t generalizing i with
  | nil => simp [bitsValue]
  | cons c cs ih =>
    cases i with
    | zero =>
      rw [bitsValue, Nat.testBit_zero, List.getElem?_cons_zero]
      split <;> simp [*]
    | succ i =>
      have hhalf : ((if c = '1' then 1 else 0) + 2 * bitsValue cs) / 2 = bitsValue cs := by
        split <;> omega
      rw [bitsValue, Nat.testBit_succ, hhalf, ih, List.getElem?_cons_succ]

theorem hist_length (w : Word) : (hist w).length = 32 := by simp [hist]

theorem hist_getElem? (w : Word) {i : Nat} (hi : i < 32) :
    (hist w)[i]? = some (if w.getLsbD i then '1' else '0') := by
  simp [hist, hi]

theorem isBit_of_mem_hist {w : Word} {c : Char} (hc : c ∈ hist w) : isBit c = true := by
  obtain ⟨i, -, rfl⟩ := List.mem_map.mp hc
  split <;> rfl

theorem unhist_hist (w : Word) : unhist (hist w) = some w := by
  rw [unhist, if_pos ⟨hist_length w, List.all_eq_true.mpr fun _ hc => isBit_of_mem_hist hc⟩, Option.some_inj]
  ext i hi
  simp [BitVec.getLsbD_ofNat, ← BitVec.getLsbD_eq_getElem, bitsValue_testBit, hist_getElem? w hi, hi]

/-- A bit string of 32 characters is the historical string of its value. -/
theorem hist_ofNat_bitsValue {t : Text} (hlen : t.length = 32) (hbits : t.all isBit) :
    hist (BitVec.ofNat 32 (bitsValue t)) = t := by
  apply List.ext_getElem ((hist_length _).trans hlen.symm)
  intro i hi ht
  have hbit : t[i] = '0' ∨ t[i] = '1' := by
    simpa [isBit] using List.all_eq_true.mp hbits t[i] (List.getElem_mem ht)
  obtain h | h := hbit <;>
    simp [hist, BitVec.getLsbD_ofNat, bitsValue_testBit, h, ← hlen, ht]

/-- `hist` and `unhist` are each other's inverse (R86). -/
theorem unhist_eq_some_iff (t : Text) (w : Word) : unhist t = some w ↔ hist w = t := by
  constructor
  · intro h
    unfold unhist at h
    split at h
    · rename_i hform
      rw [← Option.some_inj.mp h]
      exact hist_ofNat_bitsValue hform.1 hform.2
    · cases h
  · rintro rfl
    exact unhist_hist w

/-- Only the historical string of a word is read as that word (R85). -/
theorem snapshotWord_eq_word_iff (bits : Text) (w : Word) : snapshotWord bits = .word w ↔ bits = hist w := by
  rw [eq_comm (a := bits), ← unhist_eq_some_iff]
  unfold snapshotWord
  split
  · rename_i hlen
    simp [unhist, hlen]
  · cases unhist bits <;> simp

/-! ### Laws of decimal numbers -/

/-- The model's decimal digits are the library's. -/
theorem digitValue_eq (c : Char) : digitValue c = if c.isDigit then some (c.toNat - '0'.toNat) else none := by
  have hiff : ('0' ≤ c ∧ c ≤ '9') ↔ c.isDigit := by
    simp [Char.isDigit, Char.le_def]
  simp only [digitValue, hiff]

theorem digitsValue_eq (acc : Nat) (t : Text) :
    digitsValue acc t = if t.all Char.isDigit then some (Nat.ofDigitChars 10 t acc) else none := by
  induction t generalizing acc with
  | nil => simp [digitsValue]
  | cons c cs ih =>
    rw [digitsValue, digitValue_eq, List.all_cons, Nat.ofDigitChars_cons]
    cases c.isDigit with
    | true => simpa using ih _
    | false => simp

/-- An unsigned integer is a non-empty string of digits (R80). -/
theorem parseNat_eq_some_iff (t : Text) (n : Nat) :
    parseNat t = some n ↔ t ≠ [] ∧ (∀ c ∈ t, c.isDigit = true) ∧ Nat.ofDigitChars 10 t 0 = n := by
  rw [parseNat, digitsValue_eq, ← List.all_eq_true]
  split
  · simp [*]
  · split <;> simp [*]

theorem isDigit_of_mem_decimal {n : Nat} {c : Char} (hc : c ∈ decimal n) : c.isDigit = true :=
  Nat.isDigit_of_mem_toDigits (by decide) (by decide) hc

/-- A printed number is read back. -/
theorem parseNat_decimal (n : Nat) : parseNat (decimal n) = some n :=
  (parseNat_eq_some_iff _ _).mpr
    ⟨Nat.toDigits_ne_nil, fun _ hc => isDigit_of_mem_decimal hc, Nat.ofDigitChars_ten_toDigits⟩

theorem isDigit_of_parseNat {t : Text} {n : Nat} (h : parseNat t = some n) : ∀ c ∈ t, c.isDigit = true :=
  ((parseNat_eq_some_iff t n).mp h).2.1

theorem ne_of_isDigit {c x : Char} (hc : c.isDigit = true) (hx : x.isDigit = false) : c ≠ x := by
  rintro rfl
  simp [hc] at hx

theorem not_mem_of_isDigit {t : Text} (ht : ∀ c ∈ t, c.isDigit = true) {x : Char} (hx : x.isDigit = false) : x ∉ t :=
  fun hmem => ne_of_isDigit (ht x hmem) hx rfl

/-- An unsigned integer begins with a digit. -/
theorem head?_ne_of_parseNat {t : Text} {n : Nat} (h : parseNat t = some n) {x : Char} (hx : x.isDigit = false) :
    t.head? ≠ some x :=
  fun hhead => not_mem_of_isDigit (isDigit_of_parseNat h) hx (List.mem_of_head? hhead)

/-- Both readings read an integer that has no sign. -/
theorem readNat_of_parseNat (r : Reading) {t : Text} {n : Nat} (h : parseNat t = some n) : readNat r t = some n := by
  rw [readNat_eq_parseNat r t (head?_ne_of_parseNat h rfl), h]

theorem parseInt32_of_parseNat {t : Text} {n : Nat} (h : parseNat t = some n) (hn : n < 2 ^ 31) :
    parseInt32 t = some (n : Int) := by
  unfold parseInt32
  split
  · exact absurd rfl (head?_ne_of_parseNat h (x := '-') rfl)
  · rw [h, Option.bind_some, if_pos hn]

theorem parseInt32_neg_of_parseNat {t : Text} {n : Nat} (h : parseNat t = some n) (hn : n ≤ 2 ^ 31) :
    parseInt32 ('-' :: t) = some (-(n : Int)) := by
  rw [parseInt32, h, Option.bind_some, if_pos hn]

/-- A signed integer is an unsigned one below 2^31, or one up to 2^31 after a minus sign (R80). -/
theorem parseInt32_cases {t : Text} {n : Int} (h : parseInt32 t = some n) :
    (∃ k, parseNat t = some k ∧ k < 2 ^ 31 ∧ n = k) ∨
    ∃ ds k, t = '-' :: ds ∧ parseNat ds = some k ∧ k ≤ 2 ^ 31 ∧ n = -k := by
  unfold parseInt32 at h
  split at h
  · rename_i ds
    obtain ⟨k, hk, hif⟩ := Option.bind_eq_some_iff.mp h
    split at hif
    · exact .inr ⟨ds, k, rfl, hk, ‹_›, (Option.some_inj.mp hif).symm⟩
    · cases hif
  · obtain ⟨k, hk, hif⟩ := Option.bind_eq_some_iff.mp h
    split at hif
    · exact .inl ⟨k, hk, ‹_›, (Option.some_inj.mp hif).symm⟩
    · cases hif

/-- What the narrow reading reads as a signed integer has no leading plus sign. -/
theorem head?_ne_plus_of_parseInt32 {t : Text} {n : Int} (h : parseInt32 t = some n) : t.head? ≠ some '+' := by
  obtain ⟨k, hk, -⟩ | ⟨ds, k, rfl, -⟩ := parseInt32_cases h
  · exact head?_ne_of_parseNat hk rfl
  · simp

theorem readInt32_of_parseInt32 (r : Reading) {t : Text} {n : Int} (h : parseInt32 t = some n) :
    readInt32 r t = some n := by
  rw [readInt32_eq_parseInt32 r t (head?_ne_plus_of_parseInt32 h), h]

/-- What a reading takes for a signed integer is one, perhaps after a plus sign. -/
theorem exists_parseInt32_of_readInt32 {r : Reading} {t : Text} {n : Int} (h : readInt32 r t = some n) :
    ∃ t', parseInt32 t' = some n := by
  unfold readInt32 at h
  split at h
  · split at h
    · cases h
    · exact ⟨_, h⟩
  · exact ⟨_, h⟩

/-- A signed integer is in the 32-bit range under either reading (R80). -/
theorem readInt32_range {r : Reading} {t : Text} {n : Int} (h : readInt32 r t = some n) :
    -2 ^ 31 ≤ n ∧ n < 2 ^ 31 := by
  obtain ⟨t', ht'⟩ := exists_parseInt32_of_readInt32 h
  obtain ⟨k, -, hk, rfl⟩ | ⟨ds, k, -, -, hk, rfl⟩ := parseInt32_cases ht' <;> omega

/-- Every integer of the 32-bit range can be written (R80). -/
theorem exists_parseInt32 {n : Int} (hlow : -2 ^ 31 ≤ n) (hhigh : n < 2 ^ 31) : ∃ t, parseInt32 t = some n := by
  obtain ⟨k, rfl | rfl⟩ := Int.eq_nat_or_neg n
  · exact ⟨_, parseInt32_of_parseNat (parseNat_decimal k) (by omega)⟩
  · exact ⟨_, parseInt32_neg_of_parseNat (parseNat_decimal k) (by omega)⟩

/-! ### Laws of tokens, comments and white space -/

/-- The model's cut of a text is the library's. -/
theorem splitText_eq_splitOnP (p : Char → Bool) (t : Text) : splitText p t = t.splitOnP p := by
  induction t with
  | nil => simp [splitText]
  | cons c cs ih =>
    rw [splitText, ih, List.splitOnP_cons_eq_if_modifyHead]
    cases h : cs.splitOnP p with
    | nil => exact absurd h (List.splitOnP_ne_nil p cs)
    | cons part parts => rfl

theorem isBlank_of_isDigit {c : Char} (hc : c.isDigit = true) : isBlank c = false := by
  simp [isBlank, ne_of_isDigit hc (x := ' ') rfl, ne_of_isDigit hc (x := '\t') rfl, ne_of_isDigit hc (x := '\r') rfl]

theorem isDigit_of_mem_hist {w : Word} {c : Char} (hc : c ∈ hist w) : c.isDigit = true := by
  have hbit : c = '0' ∨ c = '1' := by simpa [isBit] using isBit_of_mem_hist hc
  obtain rfl | rfl := hbit <;> rfl

section
variable {t : Text} (ht : ∀ c ∈ t, isBlank c = false) (hne : t ≠ [])
include ht hne

/-- A text without white space is one token. -/
theorem tokens_of_not_blank : tokens t = [t] := by
  rw [tokens, splitText_eq_splitOnP, List.splitOnP_eq_singleton ht]
  simp [hne]

/-- White space ends a token. -/
theorem tokens_append_blank {b : Char} (hb : isBlank b = true) (rest : Text) :
    tokens (t ++ b :: rest) = t :: tokens rest := by
  rw [tokens, tokens, splitText_eq_splitOnP, splitText_eq_splitOnP,
    List.splitOnP_append_cons_of_forall_mem ht b hb, List.filter_cons_of_pos (by simpa using hne)]

end

/-- A text without a semicolon is no comment. -/
theorem stripComment_of_not_mem {t : Text} (ht : ';' ∉ t) : stripComment t = t :=
  List.takeWhile_eq_self_iff.mpr fun _ hc => bne_iff_ne.mpr (ne_of_mem_of_not_mem hc ht)

/-- The first semicolon begins a comment (R80). -/
theorem stripComment_append_semicolon {t : Text} (ht : ';' ∉ t) (comment : Text) :
    stripComment (t ++ ';' :: comment) = t := by
  rw [stripComment, List.takeWhile_append_of_pos fun c hc => bne_iff_ne.mpr (ne_of_mem_of_not_mem hc ht)]
  simp

theorem splitColon_append_colon {t : Text} (ht : ':' ∉ t) (rest : Text) :
    splitColon (t ++ ':' :: rest) = some (t, rest) := by
  induction t with
  | nil => rfl
  | cons c cs ih =>
    have hc : c ≠ ':' := fun h => ht (h ▸ List.mem_cons_self)
    rw [List.cons_append, splitColon, if_neg hc, ih fun h => ht (List.mem_cons_of_mem c h), Option.map_some]

/-- White space behind a text without any is dropped. -/
theorem dropTrailingBlanks_append {t blanks : Text} (ht : ∀ c ∈ t, isBlank c = false)
    (hb : ∀ c ∈ blanks, isBlank c = true) : dropTrailingBlanks (t ++ blanks) = t := by
  have hkeep : t.reverse.dropWhile isBlank = t.reverse :=
    List.dropWhile_eq_self_iff.mpr fun hl => by simpa using ht _ (List.mem_reverse.mp (List.getElem_mem hl))
  rw [dropTrailingBlanks, List.reverse_append,
    List.dropWhile_append_of_pos fun c hc => hb c (List.mem_reverse.mp hc), hkeep, List.reverse_reverse]

/-- What is dropped behind a text is white space. -/
theorem exists_blanks (t : Text) :
    ∃ blanks : Text, (∀ c ∈ blanks, isBlank c = true) ∧ t = dropTrailingBlanks t ++ blanks :=
  ⟨t.rtakeWhile isBlank, fun _ hc => List.mem_rtakeWhile_imp hc, List.rdropWhile_append_rtakeWhile.symm⟩

theorem trimBlanks_append {t blanks : Text} (ht : ∀ c ∈ t, isBlank c = false) (hne : t ≠ [])
    (hb : ∀ c ∈ blanks, isBlank c = true) : trimBlanks (t ++ blanks) = t := by
  have hkeep : (t ++ blanks).dropWhile isBlank = t ++ blanks :=
    List.dropWhile_eq_self_iff.mpr fun _ => by
      obtain ⟨c, cs, rfl⟩ := List.exists_cons_of_ne_nil hne
      simp [ht c]
  rw [trimBlanks, hkeep, dropTrailingBlanks_append ht hb]

/-! ### What a line that is read can be -/

/-- The index of a line is accepted when it is the expected one and inside the Store (R84). -/
theorem checkIndex_eq_none_iff (r : Reading) (expected : Nat) (t : Text) :
    checkIndex r expected t = none ↔ readNat r t = some expected ∧ expected < 32 := by
  unfold checkIndex
  cases readNat r t with
  | none => simp
  | some i =>
    simp only [Config.storeSize, Option.some_inj]
    split
    · simp only [reduceCtorEq, false_iff]
      omega
    · split
      · simp only [reduceCtorEq, false_iff]
        omega
      · simp only [true_iff]
        omega

/-- What an assembly line may hold after its index (R80 to R83). -/
theorem asmStatement_eq_word_iff (r : Reading) (ts : List Text) (w : Word) :
    asmStatement r ts = .word w ↔
      (∃ m op, ts = [m] ∧ parseMnemonic m = some op ∧ asmWord op 0 = w) ∨
      ∃ m t op n, ts = [m, t] ∧ parseMnemonic m = some op ∧ readInt32 r t = some n ∧ asmWord op n = w := by
  fun_cases asmStatement r ts <;> simp_all

theorem asmStatement_ne_skip (r : Reading) (ts : List Text) : asmStatement r ts ≠ .skip := by
  fun_cases asmStatement r ts <;> nofun

theorem asmLine_eq_skip_iff (r : Reading) (expected : Nat) (l : Text) :
    asmLine r expected l = .skip ↔ tokens (stripComment l) = [] := by
  fun_cases asmLine r expected l <;> simp [*, asmStatement_ne_skip]

theorem asmLine_eq_word_iff (r : Reading) (expected : Nat) (l : Text) (w : Word) :
    asmLine r expected l = .word w ↔ ∃ idx rest, tokens (stripComment l) = idx :: rest ∧
      checkIndex r expected idx = none ∧ asmStatement r rest = .word w := by
  fun_cases asmLine r expected l <;> simp [*]

theorem snapshotWord_ne_skip (bits : Text) : snapshotWord bits ≠ .skip := by
  fun_cases snapshotWord bits <;> nofun

theorem snapshotLine_eq_skip_iff (r : Reading) (expected : Nat) (l : Text) :
    snapshotLine r expected l = .skip ↔ tokens (stripComment l) = [] := by
  fun_cases snapshotLine r expected l <;> simp [*, snapshotWord_ne_skip]

theorem snapshotLine_eq_word_iff (r : Reading) (expected : Nat) (l : Text) (w : Word) :
    snapshotLine r expected l = .word w ↔ tokens (stripComment l) ≠ [] ∧ ∃ idx rest,
      splitColon (stripComment l) = some (idx, rest) ∧ checkIndex r expected (snapshotIndex r idx) = none ∧
      snapshotBits r rest = some (hist w) := by
  fun_cases snapshotLine r expected l <;> simp [*, snapshotWord_eq_word_iff]

/-! ### What a text that is read can be -/

theorem loadLines_cons_eq_ok_iff (parse : Nat → Text → LineResult) (expected : Nat) (l : Text) (ls : List Text)
    (ws : List Word) : loadLines parse expected (l :: ls) = .ok ws ↔
      (parse expected l = .skip ∧ loadLines parse expected ls = .ok ws) ∨
      ∃ w ws', parse expected l = .word w ∧ loadLines parse (expected + 1) ls = .ok ws' ∧ ws = w :: ws' := by
  rw [loadLines]
  cases parse expected l with
  | skip => simp
  | bad e => simp
  | word w => cases loadLines parse (expected + 1) ls <;> simp [Except.map, eq_comm]

theorem loadAs_eq_ok_iff (parse : Nat → Text → LineResult) (src : Text) (img : Image) :
    loadAs parse src = .ok img ↔ ∃ ws, loadLines parse 0 (lines src) = .ok ws ∧ ws ≠ [] ∧ padImage ws = img := by
  unfold loadAs
  cases loadLines parse 0 (lines src) with
  | error e => simp
  | ok ws => cases ws <;> simp

/-- Whatever the narrow reading of a line accepts, the wide one accepts with the same meaning (N12; log 21). -/
def WideExtendsNarrow (parse : Reading → Nat → Text → LineResult) : Prop :=
  ∀ expected l, (parse .narrow expected l = .skip → parse .wide expected l = .skip) ∧
    ∀ w, parse .narrow expected l = .word w → parse .wide expected l = .word w

section
variable {parse : Reading → Nat → Text → LineResult} (hparse : WideExtendsNarrow parse)
include hparse

theorem WideExtendsNarrow.loadLines {ls : List Text} {expected : Nat} {ws : List Word}
    (h : loadLines (parse .narrow) expected ls = .ok ws) : loadLines (parse .wide) expected ls = .ok ws := by
  induction ls generalizing expected ws with
  | nil => exact h
  | cons l ls ih =>
    obtain ⟨hskip, hword⟩ := hparse expected l
    rw [loadLines_cons_eq_ok_iff] at h ⊢
    obtain ⟨hl, hls⟩ | ⟨w, ws', hl, hls, rfl⟩ := h
    · exact .inl ⟨hskip hl, ih hls⟩
    · exact .inr ⟨w, ws', hword w hl, ih hls, rfl⟩

theorem WideExtendsNarrow.loadAs {src : Text} {img : Image} (h : loadAs (parse .narrow) src = .ok img) :
    loadAs (parse .wide) src = .ok img := by
  rw [loadAs_eq_ok_iff] at h ⊢
  obtain ⟨ws, hws, hne, himg⟩ := h
  exact ⟨ws, hparse.loadLines hws, hne, himg⟩

end

theorem checkIndex_wide_of_narrow {expected : Nat} {t : Text} (h : checkIndex .narrow expected t = none) :
    checkIndex .wide expected t = none := by
  rw [checkIndex_eq_none_iff] at h ⊢
  exact ⟨readNat_of_parseNat .wide h.1, h.2⟩

theorem asmLine_wideExtendsNarrow : WideExtendsNarrow asmLine := by
  refine fun expected l => ⟨fun h => ?_, fun w h => ?_⟩
  · rwa [asmLine_eq_skip_iff] at h ⊢
  · rw [asmLine_eq_word_iff] at h ⊢
    obtain ⟨idx, rest, htokens, hidx, hrest⟩ := h
    refine ⟨idx, rest, htokens, checkIndex_wide_of_narrow hidx, ?_⟩
    rw [asmStatement_eq_word_iff] at hrest ⊢
    exact hrest.imp_right fun ⟨m, t, op, n, hts, hm, hn, hw⟩ =>
      ⟨m, t, op, n, hts, hm, readInt32_of_parseInt32 .wide hn, hw⟩

/-- The index of a snapshot line that is an integer is the same text under both readings. -/
theorem snapshotIndex_of_parseNat (r : Reading) {t : Text} {n : Nat} (h : parseNat t = some n) :
    snapshotIndex r t = t := by
  obtain ⟨hne, hdigits, -⟩ := (parseNat_eq_some_iff t n).mp h
  cases r with
  | narrow => rfl
  | wide =>
    simpa [snapshotIndex] using
      trimBlanks_append (blanks := []) (fun c hc => isBlank_of_isDigit (hdigits c hc)) hne (by simp)

/-- R85's form, one space and then the bit string, gives the bit string under both readings. -/
theorem snapshotBits_hist (r : Reading) (w : Word) {blanks : Text} (hb : ∀ c ∈ blanks, isBlank c = true) :
    snapshotBits r (' ' :: (hist w ++ blanks)) = some (hist w) := by
  have hbits : ∀ c ∈ hist w, isBlank c = false := fun c hc => isBlank_of_isDigit (isDigit_of_mem_hist hc)
  have hne : hist w ≠ [] := List.ne_nil_of_length_pos (by rw [hist_length]; decide)
  cases r with
  | narrow => rw [snapshotBits, dropTrailingBlanks_append hbits hb]
  | wide =>
    rw [snapshotBits]
    exact congrArg some (trimBlanks_append hbits hne hb)

/-- The narrow reading wants a space before the bit string. -/
theorem eq_cons_of_snapshotBits_narrow {t bits : Text} (h : snapshotBits .narrow t = some bits) :
    ∃ rest, t = ' ' :: rest ∧ dropTrailingBlanks rest = bits := by
  unfold snapshotBits at h
  split at h
  · exact ⟨_, rfl, Option.some_inj.mp h⟩
  · cases h
  · contradiction

theorem snapshotLine_wideExtendsNarrow : WideExtendsNarrow snapshotLine := by
  refine fun expected l => ⟨fun h => ?_, fun w h => ?_⟩
  · rwa [snapshotLine_eq_skip_iff] at h ⊢
  · rw [snapshotLine_eq_word_iff] at h ⊢
    obtain ⟨hne, idx, rest, hsplit, hidx, hbits⟩ := h
    refine ⟨hne, idx, rest, hsplit, ?_, ?_⟩
    · have hnat : parseNat idx = some expected := ((checkIndex_eq_none_iff _ _ _).mp hidx).1
      rw [snapshotIndex_of_parseNat .wide hnat]
      exact checkIndex_wide_of_narrow hidx
    · obtain ⟨rest', rfl, hdrop⟩ := eq_cons_of_snapshotBits_narrow hbits
      obtain ⟨blanks, hb, hrest⟩ := exists_blanks rest'
      rw [hrest, hdrop, snapshotBits_hist .wide w hb]

/-- R85's line form, with white space or nothing behind the bit string, gives the word. -/
theorem snapshotLine_of_form (r : Reading) {i : Nat} (hi : i < 32) (w : Word) {l blanks : Text}
    (hb : ∀ c ∈ blanks, isBlank c = true) (hl : stripComment l = decimal i ++ ':' :: ' ' :: (hist w ++ blanks)) :
    snapshotLine r i l = .word w := by
  have hcolon : ':' ∉ decimal i := not_mem_of_isDigit (fun _ hc => isDigit_of_mem_decimal hc) rfl
  have htokens : tokens (decimal i ++ ':' :: ' ' :: (hist w ++ blanks)) ≠ [] := by
    have hfirst : ∀ c ∈ decimal i ++ [':'], isBlank c = false :=
      List.forall_mem_append.mpr ⟨fun c hc => isBlank_of_isDigit (isDigit_of_mem_decimal hc), by simp [isBlank]⟩
    have hcons := tokens_append_blank hfirst (by simp) (b := ' ') rfl (hist w ++ blanks)
    rw [List.append_assoc] at hcons
    exact hcons ▸ List.cons_ne_nil _ _
  rw [snapshotLine_eq_word_iff, hl]
  refine ⟨htokens, _, _, splitColon_append_colon hcolon _, ?_, snapshotBits_hist r w hb⟩
  rw [snapshotIndex_of_parseNat r (parseNat_decimal i), checkIndex_eq_none_iff]
  exact ⟨readNat_of_parseNat r (parseNat_decimal i), hi⟩

/-- The mnemonics are distinct: each is read as its own operation (R81). -/
theorem parseMnemonic_mnemonicOf (i : Instr) : parseMnemonic (mnemonicOf i) = some (.machine i.code) := by
  cases i <;> rfl

theorem parseMnemonic_eq_num_iff (t : Text) : parseMnemonic t = some .num ↔ t = "NUM".toList := by
  constructor
  · intro h
    obtain ⟨l₁, l₂, htable, -⟩ := List.lookup_eq_some_iff.mp h
    have hmem : (t, AsmOp.num) ∈ mnemonicTable := htable ▸ List.mem_append_right l₁ List.mem_cons_self
    simpa [mnemonicTable] using hmem
  · rintro rfl
    rfl

/-- An operand of NUM is the image word verbatim (R83). -/
theorem asmStatement_num_eq_word {r : Reading} {t : Text} {n : Int} (h : readInt32 r t = some n) :
    asmStatement r ["NUM".toList, t] = .word (BitVec.ofInt 32 n) :=
  (asmStatement_eq_word_iff _ _ _).mpr (.inr ⟨_, t, .num, n, rfl, rfl, h, rfl⟩)

/-- The accepted lines of an assembly text have the indices that were expected, inside the Store (R84). -/
theorem loadLines_asmLine_indices {r : Reading} {ls : List Text} {expected : Nat} {ws : List Word}
    (hexp : expected ≤ 32) (h : loadLines (asmLine r) expected ls = .ok ws) :
    (ls.filterMap fun l => (tokens (stripComment l)).head?).map (readNat r)
        = (List.range' expected ws.length).map some ∧ expected + ws.length ≤ 32 := by
  induction ls generalizing expected ws with
  | nil =>
    cases h
    exact ⟨rfl, hexp⟩
  | cons l ls ih =>
    rw [loadLines_cons_eq_ok_iff] at h
    obtain ⟨hl, hls⟩ | ⟨w, ws', hl, hls, rfl⟩ := h
    · rw [asmLine_eq_skip_iff] at hl
      simpa [hl] using ih hexp hls
    · obtain ⟨idx, rest, htokens, hidx, -⟩ := (asmLine_eq_word_iff _ _ _ _).mp hl
      obtain ⟨hread, hlt⟩ := (checkIndex_eq_none_iff _ _ _).mp hidx
      obtain ⟨hmap, hle⟩ := ih hlt hls
      refine ⟨?_, by rw [List.length_cons]; omega⟩
      simp [htokens, hread, hmap, List.range'_succ]

theorem padImage_eq_zero (ws : List Word) {j : Nat} (h : j < 32) (hj : ws.length ≤ j) : (padImage ws)[j] = 0 := by
  simp [padImage, List.getElem?_eq_none hj]

theorem indicesWf_range {k : Nat} (h0 : k ≠ 0) (hk : k ≤ 32) : indicesWf (List.range k) = true := by
  simp [indicesWf, h0, hk]

theorem mnemonicOf_not_blank (i : Instr) : (∀ c ∈ mnemonicOf i, isBlank c = false) ∧ mnemonicOf i ≠ [] := by
  cases i <;> simp [mnemonicOf, isBlank]

/-- A disassembly is two tokens, the mnemonic and the operand (R80, R89). -/
theorem tokens_disassemble (w : Word) :
    tokens (disassemble w) = [mnemonicOf (decode w), decimal (operandField w).toNat] := by
  obtain ⟨hblank, hne⟩ := mnemonicOf_not_blank (decode w)
  rw [disassemble, tokens_append_blank hblank hne rfl,
    tokens_of_not_blank (fun c hc => isBlank_of_isDigit (isDigit_of_mem_decimal hc)) Nat.toDigits_ne_nil]

/-! ### The statements of 30_encoding.md about text -/

/-- Settles O45: both directions say that `unhist` inverts `hist`. -/
theorem historicalBitStringRoundTrips : Obligations.HistoricalBitStringRoundTrips := by
  refine ⟨unhist_hist, fun t hlen hbits => ?_⟩
  have hall : t.all isBit := List.all_eq_true.mpr fun c hc => by simpa [isBit] using hbits c hc
  have hback := hist_ofNat_bitsValue hlen hall
  exact ⟨_, (unhist_eq_some_iff t _).mpr hback, hback⟩

/-- Settles O46: the line without its comment has R85's form. -/
theorem snapshotLineLoadsItsWord : Obligations.SnapshotLineLoadsItsWord := by
  intro r i w comment hi
  have hindex : ';' ∉ decimal i := not_mem_of_isDigit (fun _ hc => isDigit_of_mem_decimal hc) rfl
  have hbits : ';' ∉ hist w := not_mem_of_isDigit (fun _ hc => isDigit_of_mem_hist hc) rfl
  have hform : ';' ∉ decimal i ++ ':' :: ' ' :: hist w := by
    simp [hindex, hbits]
  refine ⟨snapshotLine_of_form r hi w (blanks := []) (by simp) ?_,
    snapshotLine_of_form r hi w (blanks := [' ']) (by simp [isBlank]) ?_⟩
  · rw [stripComment_of_not_mem hform, List.append_nil]
  · have hspace : ';' ∉ (decimal i ++ ':' :: ' ' :: hist w) ++ [' '] := by
      simpa using hform
    simpa using stripComment_append_semicolon hspace comment

/-- Settles O47: an operand is in the 32-bit range, where a word and its signed value determine each other. -/
theorem numEmitsItsOperandVerbatim : Obligations.NumEmitsItsOperandVerbatim := by
  refine ⟨parseMnemonic_eq_num_iff, fun r => ⟨rfl, fun t n h => ⟨_, asmStatement_num_eq_word h, ?_⟩, fun w => ?_⟩⟩
  · obtain ⟨hlow, hhigh⟩ := readInt32_range h
    exact BitVec.toInt_ofInt_eq_self (by decide) hlow hhigh
  · obtain ⟨t, ht⟩ := exists_parseInt32 (n := w.toInt) (BitVec.le_toInt w) (BitVec.toInt_lt)
    refine ⟨t, ?_⟩
    rw [asmStatement_num_eq_word (readInt32_of_parseInt32 r ht), BitVec.ofInt_toInt]

/-- Settles O49: the narrow reading of an accepted text numbers its lines 0, 1, ..., one word for each. -/
theorem acceptedAssemblyHasContiguousIndices : Obligations.AcceptedAssemblyHasContiguousIndices := by
  intro src img h
  obtain ⟨-, hnarrow⟩ := (loadText_eq_image_iff _ _ _).mp h
  obtain ⟨ws, hws, hne, rfl⟩ := (loadAs_eq_ok_iff _ _ _).mp hnarrow
  obtain ⟨hindices, hle⟩ := loadLines_asmLine_indices (Nat.zero_le 32) hws
  rw [Nat.zero_add] at hle
  rw [← List.range_eq_range'] at hindices
  refine ⟨List.range ws.length, indicesWf_range (by simpa using hne) hle, hindices, fun j hj hlen => ?_⟩
  exact padImage_eq_zero ws hj (by simpa using hlen)

/-- Settles O50: the assembler packs again the two fields the disassembly prints. -/
theorem assemblingADisassemblyGivesTheCanonicalWord : Obligations.AssemblingADisassemblyGivesTheCanonicalWord := by
  intro r w
  have hlt : (operandField w).toNat < 2 ^ 31 := Nat.lt_trans (operandField w).isLt (by decide)
  have hoperand : readInt32 r (decimal (operandField w).toNat) = some ((operandField w).toNat : Int) :=
    readInt32_of_parseInt32 r (parseInt32_of_parseNat (parseNat_decimal _) hlt)
  rw [tokens_disassemble, asmStatement_eq_word_iff]
  refine .inr ⟨_, _, _, _, rfl, parseMnemonic_mnemonicOf _, hoperand, ?_⟩
  rw [asmWord_machine, decode_code, BitVec.ofInt_natCast, BitVec.ofNat_toNat, BitVec.setWidth_eq, packFields_fields]

/-- Settles O51: for either format the wide reading extends the narrow one, line by line. -/
theorem textOfTheGivenFormLoads : Obligations.TextOfTheGivenFormLoads := by
  intro parse hmem src
  have hparse : WideExtendsNarrow parse := by
    obtain rfl | rfl : parse = asmLine ∨ parse = snapshotLine := by simpa using hmem
    · exact asmLine_wideExtendsNarrow
    · exact snapshotLine_wideExtendsNarrow
  refine ⟨fun img h => (loadText_eq_image_iff _ _ _).mpr ⟨hparse.loadAs h, h⟩, fun e l h => ?_⟩
  rw [loadText_eq_failed_iff] at h
  cases hnarrow : loadAs (parse .narrow) src with
  | error x => exact ⟨x.1, x.2, rfl⟩
  | ok img => simp [hparse.loadAs hnarrow] at h

end Sys2Proof.Machine

/-! ### Laws of the cycle: the sign test, fetch/advance and its failure, `PC` after a cycle, R111's pseudocode -/

namespace Sys2Proof.Machine

/-! #### The sign of a word -/

theorem isneg_eq_msb (a : Word) : isneg a = a.msb := (BitVec.msb_eq_getLsbD_last a).symm

/-- CMP's test as R111 writes it, on the unsigned value. -/
theorem isneg_iff_toNat (a : Word) : isneg a = true ↔ 2 ^ 31 ≤ a.toNat := by
  rw [isneg_eq_msb, BitVec.msb_eq_decide, decide_eq_true_iff]

/-- CMP's test as a test of the sign (R142 law 5, R150). -/
theorem isneg_iff_toInt (a : Word) : isneg a = true ↔ a.toInt < 0 := by
  rw [isneg_eq_msb, BitVec.msb_eq_toInt, decide_eq_true_iff]

/-! #### Fetch/advance, and a fetch that fails -/

/-- The next fetch address is the non-negative remainder of the signed increment (R101; D2, log 2). -/
theorem nextFetch_toNat_eq_emod (s : State) : (s.nextFetch.toNat : Int) = (s.pc.toInt + 1) % 32 := by
  rw [nextFetch_toNat, BitVec.toInt_eq_toNat_cond]
  split <;> omega

/-- `PC` after fetch/advance, as a number. -/
theorem atFetch_pc_toNat (s : State) : s.atFetch.pc.toNat = s.nextFetch.toNat :=
  BitVec.toNat_setWidth_of_le (by decide)

/-- The remainder with the sign of a negative dividend, 0 for a multiple of 32 only (D2; log 2). -/
theorem tmod_32_range {x : Int} (hneg : x < 0) (hmul : x % 32 ≠ 0) : -31 ≤ x.tmod 32 ∧ x.tmod 32 ≤ -1 := by
  have htmod : x.tmod 32 = -(-x % 32) := by
    rw [← Int.tmod_eq_emod_of_nonneg (by omega), Int.neg_tmod, neg_neg]
  omega

/-- Where the readings of `PC_MOD` differ, `trunc` gives no Store index (R103). -/
theorem le_reducePc_trunc {pc : Word} (hneg : (pc + 1).toInt < 0) (hmul : (pc + 1).toInt % 32 ≠ 0) :
    32 ≤ (reducePc .trunc pc).toNat := by
  obtain ⟨hlow, hhigh⟩ := tmod_32_range hneg hmul
  have hnat : (reducePc .trunc pc).toNat = ((pc + 1).toInt.tmod 32 % (2 ^ 32 : Nat)).toNat := BitVec.toNat_ofInt ..
  omega

/-- A fetch at a `PC` outside the Store raises DecodeAccessFault (R103, R161). -/
theorem decodeExecute_of_pc_outside {s : State} (h : 32 ≤ s.pc.toNat) :
    decodeExecute s = .next (s.raise (.decodeAccess s.pc)) := by
  have hindex : storeIndex s.pc = none := if_neg h.not_gt
  have hfetch : s.fetchWord = none := by rw [State.fetchWord, hindex, Option.map_none]
  rw [decodeExecute, hfetch]

/-- The sequencer counts the cycle it issues, under either reading (R107). -/
theorem issueCycle_of_cycle {m : PcMod} {s u : State} (hh : s.halted = false)
    (hc : s.cycles + 1 < 2 ^ Config.cycleWidth) (hu : cycle m s = .next u) : issueCycle m s = .next u.countCycle := by
  rw [issueCycle, if_neg (by simp [hh]), if_pos hc, hu]

/-! #### `PC` after a cycle -/

/-- The first row of R112's table: an instruction that leaves `PC` at its own address. -/
theorem pc_and_nextFetch_of_stays {s t : State} (h : t.pc = s.atFetch.pc) :
    t.pc.toNat = s.nextFetch.toNat ∧ t.nextFetch.toNat = (s.nextFetch.toNat + 1) % 32 :=
  ⟨by rw [h, atFetch_pc_toNat], nextFetch_toNat_of_pc h⟩

/-- An instruction that adds `v` to the address at which it stands (R112: JRP, and CMP with `v` = 1). -/
theorem pc_and_nextFetch_of_adds {s t : State} {v : Word} (h : t.pc = s.atFetch.pc + v) :
    t.pc.toNat = (s.nextFetch.toNat + v.toNat) % 2 ^ 32 ∧
      t.nextFetch.toNat = (s.nextFetch.toNat + v.toNat + 1) % 32 := by
  have hpc : t.pc.toNat = (s.nextFetch.toNat + v.toNat) % 2 ^ 32 := by rw [h, BitVec.toNat_add, atFetch_pc_toNat]
  refine ⟨hpc, ?_⟩
  rw [nextFetch_toNat, hpc]
  omega

/-- The increment of a skipping CMP does not overflow. -/
theorem pc_and_nextFetch_of_skips {s t : State} (h : t.pc = s.atFetch.pc + 1) :
    t.pc.toNat = s.nextFetch.toNat + 1 ∧ t.nextFetch.toNat = (s.nextFetch.toNat + 2) % 32 := by
  obtain ⟨hpc, hfetch⟩ := pc_and_nextFetch_of_adds h
  have hfit : s.nextFetch.toNat + 1 < 2 ^ 32 := Nat.lt_trans (Nat.succ_lt_succ s.nextFetch.isLt) (by decide)
  exact ⟨hpc.trans (Nat.mod_eq_of_lt hfit), hfetch⟩

/-! #### The spec's pseudocode of the cycle -/

/-- R111's `PC` after its first line is the one fetch/advance leaves. -/
theorem ofNat_nextFetch (s : State) : BitVec.ofNat 32 s.nextFetch.toNat = s.atFetch.pc :=
  BitVec.ofNat_toNat 32 s.nextFetch

/-- An array read of R111 is `MemRead`. -/
theorem refWord_toRef (s : State) (a : Addr) : refWord s.toRef.store a.toNat = s.memRead a := by
  have ha : a.toNat % 32 = a.toNat := Nat.mod_eq_of_lt a.isLt
  simp [refWord, State.toRef, State.memRead, ha]

/-- A register write of the model is R111's, of an equal value. -/
theorem toRef_setPc (s : State) {v v' : Word} (hv : v = v') : (s.setPc v).toRef = { s.toRef with pc := v' } := by
  rw [← hv]
  rfl

theorem toRef_setAcc (s : State) {v v' : Word} (hv : v = v') : (s.setAcc v).toRef = { s.toRef with acc := v' } := by
  rw [← hv]
  rfl

/-- An array write of R111 is `MemWrite`. -/
theorem toRef_memWrite (s : State) (a : Addr) (v : Word) :
    (s.memWrite a v).toRef = { s.toRef with store := refSet s.toRef.store a.toNat v } := by
  have hstore : (s.memWrite a v).toRef.store = refSet s.toRef.store a.toNat v := by
    ext k hk
    simp [State.toRef, refSet, Memory.read_write]
  rw [← hstore]
  rfl

/-- The Nat difference of R111, taken modulo 2^32, is the subtraction of words. -/
theorem ofNat_toNat_sub (a m : Word) : BitVec.ofNat 32 (a.toNat + 2 ^ 32 - m.toNat) = a - m := by
  rw [BitVec.sub_def, Nat.add_comm a.toNat, Nat.sub_add_comm m.isLt.le]

/-- R111's `case code of` computes each instruction's execute phase, at the address of the instruction. -/
theorem toRef_of_exec {s u : State} {p : Addr} (hp : s.pc = p.setWidth 32) {i : Instr} (hu : exec i s = .next u) :
    u.toRef = refExecute s.toRef p.toNat i.operand.toNat (s.memRead i.operand).toNat i.code.toNat := by
  have hpc : BitVec.ofNat 32 p.toNat = s.pc := by rw [hp, BitVec.ofNat_toNat]
  have hword (w : Word) : BitVec.ofNat 32 w.toNat = w := by simp
  rw [exec_eq] at hu
  cases hu
  cases i with
  | jmp n => exact toRef_setPc s (hword (s.memRead n)).symm
  | jrp n => exact toRef_setPc s (by rw [Instr.operand, BitVec.ofNat_add, hpc, hword])
  | ldn n => exact toRef_setAcc s rfl
  | sto n => exact toRef_memWrite s n s.acc
  | sub n => exact toRef_setAcc s (ofNat_toNat_sub s.acc (s.memRead n)).symm
  | sub2 n => exact toRef_setAcc s (ofNat_toNat_sub s.acc (s.memRead n)).symm
  | cmp n =>
    refine toRef_setPc s (v' := BitVec.ofNat 32 (if 2 ^ 31 ≤ s.acc.toNat then p.toNat + 1 else p.toNat)) ?_
    simp only [isneg_iff_toNat, apply_ite (BitVec.ofNat 32), BitVec.ofNat_add, hpc]
    rfl
  | stp n => rfl

/-- R111's cycle takes the fields of the word at the next fetch address, and executes there. -/
theorem refCycle_toRef (s : State) :
    refCycle s.toRef = refExecute s.atFetch.toRef s.nextFetch.toNat s.nextInstr.operand.toNat
      (s.memRead s.nextInstr.operand).toNat s.nextInstr.code.toNat := by
  have hfetch : (s.pc.toNat + 1) % 2 ^ 32 % 32 = s.nextFetch.toNat := by
    rw [nextFetch_toNat]
    exact Nat.mod_mod_of_dvd _ (by decide)
  have hpc : s.toRef.pc = s.pc := rfl
  have hat : ({ s.toRef with pc := BitVec.ofNat 32 s.nextFetch.toNat } : RefState) = s.atFetch.toRef := by
    rw [ofNat_nextFetch]
    rfl
  simp only [refCycle, hpc, hfetch, hat, refWord_toRef, State.nextInstr, decode_operand, decode_code,
    ← operandField_toNat, ← opcodeField_toNat]

end Sys2Proof.Machine

/-! ### Laws of whole runs -/

namespace Sys2Proof.Machine

theorem runContinues_eq_false_iff (b : Budget) (s : State) :
    runContinues b s = false ↔ s.halted = true ∨ (b.bounded = true ∧ b.maxCycles.toNat ≤ s.cycles) := by
  cases hh : s.halted <;> simp [runContinues, hh]

theorem runContinues_iff (b : Budget) (s : State) :
    runContinues b s = true ↔ s.halted = false ∧ (b.bounded = true → s.cycles < b.maxCycles.toNat) := by
  cases hb : b.bounded <;> simp [runContinues, hb]

/-- What holds of the state where a loop ends, and is carried back over each turn, holds where the loop began. -/
theorem runLoop_ended_induction {b : Budget} {t : State} {P : Nat → State → Prop}
    (stop : ∀ patience, runContinues b t = false → P patience t)
    (turn : ∀ patience s u, runContinues b s = true → step s = .next u → P patience u → P (patience + 1) s) :
    ∀ {patience : Nat} {s : State}, runLoop b patience s = .ended t → P patience s := by
  have ended_at_stop (patience : Nat) (s : State) (hc : runContinues b s = false)
      (h : runLoop b patience s = .ended t) : P patience s := by
    rw [runLoop_of_stops hc] at h
    cases h
    exact stop patience hc
  intro patience
  induction patience with
  | zero =>
    intro s h
    cases hc : runContinues b s with
    | true => simp [runLoop, hc] at h
    | false => exact ended_at_stop 0 s hc h
  | succ patience ih =>
    intro s h
    cases hc : runContinues b s with
    | true =>
      cases hst : step s with
      | next u =>
        rw [runLoop_of_continues hc hst] at h
        exact turn patience s u hc hst (ih h)
      | fault r => simp [runLoop, hc, hst] at h
      | refused r => simp [runLoop, hc, hst] at h
    | false => exact ended_at_stop (patience + 1) s hc h

/-- Every step counts one cycle (R107). -/
theorem step_cycles {s t : State} (h : step s = .next t) : t.cycles = s.cycles + 1 := by
  obtain ⟨-, -, u, hu, rfl⟩ := step_cases h
  rw [State.countCycle_cycles, (exec_count_and_faultAddr hu).1, State.atFetch_cycles]

/-- A loop ends only where its test fails (R108). -/
theorem runContinues_of_runLoop_ended {b : Budget} {patience : Nat} {s t : State}
    (h : runLoop b patience s = .ended t) : runContinues b t = false :=
  runLoop_ended_induction (P := fun _ _ => runContinues b t = false) (fun _ hc => hc) (fun _ _ _ _ _ hc => hc) h

/-- A loop counts no more cycles than it is watched for. -/
theorem runLoop_cycles_le_patience {b : Budget} {patience : Nat} {s t : State} (h : runLoop b patience s = .ended t) :
    t.cycles ≤ s.cycles + patience := by
  refine runLoop_ended_induction (P := fun p s => t.cycles ≤ s.cycles + p) (fun p _ => Nat.le_add_right _ p) ?_ h
  intro p s u _ hst hle
  rw [step_cycles hst] at hle
  omega

/-- A bounded loop that begins within its budget ends within it (R106). -/
theorem runLoop_cycles_le_budget {b : Budget} {patience : Nat} {s t : State} (hb : b.bounded = true)
    (hs : s.cycles ≤ b.maxCycles.toNat) (h : runLoop b patience s = .ended t) : t.cycles ≤ b.maxCycles.toNat := by
  refine runLoop_ended_induction (P := fun _ s => s.cycles ≤ b.maxCycles.toNat → t.cycles ≤ b.maxCycles.toNat)
    (fun _ _ hle => hle) ?_ h hs
  intro _ s u hc hst hle _
  obtain ⟨-, hlt⟩ := (runContinues_iff b s).mp hc
  exact hle (by rw [step_cycles hst]; exact hlt hb)

/-- A run that ends unhalted has used exactly its budget (R108). -/
theorem cycles_eq_budget_of_run {b : Budget} {patience : Nat} {s t : State} (h : run b patience s = .ended t)
    (ht : t.halted = false) : b.bounded = true ∧ t.cycles = b.maxCycles.toNat := by
  rcases (runContinues_eq_false_iff b t).mp (runContinues_of_runLoop_ended h) with hhalt | ⟨hb, hge⟩
  · rw [ht] at hhalt
    cases hhalt
  · exact ⟨hb, (runLoop_cycles_le_budget hb (Nat.zero_le _) h).antisymm hge⟩

/-! #### Successive runs -/

/-- A longer watch does not change where a loop ends. -/
theorem runLoop_add_patience {b : Budget} {patience : Nat} {s t : State} (h : runLoop b patience s = .ended t) (k : Nat) :
    runLoop b (k + patience) s = .ended t := by
  refine runLoop_ended_induction (P := fun p s => runLoop b (k + p) s = .ended t) (fun p hc => runLoop_of_stops hc _) ?_ h
  intro p s u hc hst ih
  rw [← Nat.add_assoc, runLoop_of_continues hc hst, ih]

/-- Every turn a budget allows is allowed by a budget not below it. -/
theorem runContinues_of_le {n m : Word} (hnm : n.toNat ≤ m.toNat) {s : State} (h : runContinues ⟨true, n⟩ s = true) :
    runContinues ⟨true, m⟩ s = true := by
  obtain ⟨hh, hlt⟩ := (runContinues_iff _ s).mp h
  exact (runContinues_iff _ s).mpr ⟨hh, fun hb => Nat.lt_of_lt_of_le (hlt hb) hnm⟩

/-- A loop of a larger budget passes through the state where the loop of a smaller one ends. -/
theorem runLoop_of_le {n m : Word} (hnm : n.toNat ≤ m.toNat) {p q : Nat} {s t u : State}
    (h : runLoop ⟨true, n⟩ p s = .ended t) (hu : runLoop ⟨true, m⟩ q t = .ended u) :
    runLoop ⟨true, m⟩ (q + p) s = .ended u := by
  refine runLoop_ended_induction (P := fun p s => runLoop ⟨true, m⟩ (q + p) s = .ended u) ?_ ?_ h
  · intro p _
    rw [Nat.add_comm]
    exact runLoop_add_patience hu p
  · intro p s v hc hst ih
    rw [← Nat.add_assoc, runLoop_of_continues (runContinues_of_le hnm hc) hst, ih]

/-- The same state with `k` more cycles in its count. -/
def State.addCycles (s : State) (k : Nat) : State := { s with cycles := s.cycles + k }

theorem State.startRun_addCycles (s : State) : s.startRun.addCycles s.cycles = s := by
  simp [State.startRun, State.addCycles]

/-- No execute phase reads or writes the count. -/
theorem exec_addCycles {i : Instr} {s u : State} (h : exec i s = .next u) (k : Nat) :
    exec i (s.addCycles k) = .next (u.addCycles k) := by
  rw [exec_eq] at h ⊢
  cases h
  cases i <;> rfl

/-- A step depends on the count only in that it must have room (D6, log 6). -/
theorem step_addCycles {s t : State} (h : step s = .next t) {k : Nat} (hc : s.cycles + k + 1 < 2 ^ Config.cycleWidth) :
    step (s.addCycles k) = .next (t.addCycles k) := by
  obtain ⟨hh, -, u, hu, rfl⟩ := step_cases h
  have hcount : u.countCycle.addCycles k = (u.addCycles k).countCycle := by
    simp [State.countCycle, State.addCycles, Nat.add_right_comm]
  rw [hcount]
  exact step_of_exec hh hc (exec_addCycles hu k)

/-- A bounded loop goes the same way from a count that is `k` higher with a budget that is `k` higher. -/
theorem runLoop_addCycles {m m' : Word} {k : Nat} (hm : m'.toNat = m.toNat + k) {p : Nat} {s t : State}
    (h : runLoop ⟨true, m⟩ p s = .ended t) : runLoop ⟨true, m'⟩ p (s.addCycles k) = .ended (t.addCycles k) := by
  have hcontinues (s : State) : runContinues ⟨true, m'⟩ (s.addCycles k) = runContinues ⟨true, m⟩ s := by
    simp [runContinues, State.addCycles, hm]
  refine runLoop_ended_induction (P := fun p s => runLoop ⟨true, m'⟩ p (s.addCycles k) = .ended (t.addCycles k)) ?_ ?_ h
  · intro p hc
    exact runLoop_of_stops (by rw [hcontinues, hc]) p
  · intro p s u hc hst ih
    obtain ⟨-, hbudget⟩ := (runContinues_iff _ s).mp hc
    have hlt : s.cycles < m.toNat := hbudget rfl
    have hroom : s.cycles + k + 1 < 2 ^ Config.cycleWidth := by
      have hfit : m'.toNat < 2 ^ 32 := m'.isLt
      rw [Config.cycleWidth]
      omega
    rw [runLoop_of_continues (by rw [hcontinues, hc]) (step_addCycles hst hroom), ih]

/-- A second run goes as the loop of the summed budget goes on from where the first run ended: a first run that did not halt
has used its whole budget, and after one that halted neither issues a cycle. -/
theorem runLoop_of_runBounded_after {s t u : State} {n m m' : Word} (hm : m'.toNat = n.toNat + m.toNat)
    (ht : runBounded n s = .ended t) (hu : runBounded m t = .ended u) :
    runLoop ⟨true, m'⟩ m.toNat t = .ended (u.addCycles t.cycles) := by
  cases hh : t.halted with
  | true =>
    rw [runBounded, run_of_halted hh] at hu
    cases hu
    rw [t.startRun_addCycles]
    exact runLoop_of_stops ((runContinues_eq_false_iff _ t).mpr (.inl hh)) _
  | false =>
    have hused : t.cycles = n.toNat := (cycles_eq_budget_of_run ht hh).2
    have hshift := runLoop_addCycles (k := t.cycles) (by rw [hm, hused, Nat.add_comm]) hu
    rwa [t.startRun_addCycles] at hshift

/-! ### The statements of 40_instruction_cycle.md -/

/-- Settles O21: both execute, at the next fetch address, the instruction the word there encodes. -/
theorem cycleRefinesTheSpecPseudocode : Obligations.CycleRefinesTheSpecPseudocode := by
  intro s _
  obtain ⟨u, hu, -⟩ := exec_cases s.nextInstr s.atFetch
  exact ⟨u, by rw [cycle_eq, hu], by rw [refCycle_toRef]; exact toRef_of_exec rfl hu⟩

/-- Settles O44: the larger budget passes through the state where the first run ends, and goes on as the second run does. -/
theorem successiveRunsCompose : Obligations.SuccessiveRunsCompose := by
  intro s t u n m hfit ht hu
  have hsum : (n + m).toNat = n.toNat + m.toNat := BitVec.toNat_add_of_lt hfit
  have hrest := runLoop_of_runBounded_after hsum ht hu
  have hrun := runLoop_of_le (by rw [hsum]; exact Nat.le_add_right _ _) ht hrest
  have hcount : ({ u with cycles := t.cycles + u.cycles } : State) = u.addCycles t.cycles := by
    rw [State.addCycles, Nat.add_comm]
  rw [hcount, runBounded, run, hsum, Nat.add_comm]
  exact hrun

/-- Settles O13: the next fetch address is that remainder, and a five-bit number. -/
theorem fetchAdvanceGivesTheNonNegativeRemainder : Obligations.FetchAdvanceGivesTheNonNegativeRemainder := by
  intro s
  have hpc : (s.fetchAdvance pcMod).pc.toNat = s.nextFetch.toNat := by rw [fetchAdvance_pcMod, atFetch_pc_toNat]
  rw [hpc]
  exact ⟨nextFetch_toNat_eq_emod s, s.nextFetch.isLt, rfl, fun _ => rfl, ⟨rfl, rfl, rfl, rfl⟩⟩

/-- Settles O15: `trunc` leaves in `PC` a value that is no Store index, and the cycle that raises the fault is counted. -/
theorem fetchOutsideTheStoreRaisesDecodeAccessFault : Obligations.FetchOutsideTheStoreRaisesDecodeAccessFault := by
  intro s hh hc hneg hmul
  have hcycle := decodeExecute_of_pc_outside (s := s.fetchAdvance .trunc) (le_reducePc_trunc hneg hmul)
  exact ⟨_, issueCycle_of_cycle hh hc hcycle, rfl, rfl, rfl, rfl, rfl, fun _ => rfl, rfl⟩

/-- Settles O16: the execute phase of every instruction completes, and writes the status registers only by STP. -/
theorem everyCycleCompletesWithoutRunTimeError : Obligations.EveryCycleCompletesWithoutRunTimeError := by
  intro s hh hc
  obtain ⟨u, hu, -⟩ := exec_cases s.nextInstr s.atFetch
  obtain ⟨hcycles, hfault⟩ := exec_count_and_faultAddr hu
  refine ⟨u.countCycle, step_of_exec hh hc hu, congrArg (· + 1) hcycles, hfault, ?_⟩
  rcases exec_status_cases hu with ⟨hhalted, hcause, -, -⟩ | ⟨n, -, rfl⟩
  · exact .inl ⟨hhalted.trans hh, hcause⟩
  · exact .inr ⟨rfl, rfl⟩

/-- Settles O20: by the instruction fetched; only JMP, JRP and a skipping CMP write `PC`. -/
theorem pcAfterACycleFollowsTheTable : Obligations.PcAfterACycleFollowsTheTable := by
  intro s hh hc
  obtain ⟨u, hu, -⟩ := exec_cases s.nextInstr s.atFetch
  refine ⟨u.countCycle, step_of_exec hh hc hu, ?_⟩
  have hi : decode (s.memRead s.nextFetch) = s.nextInstr := rfl
  rw [exec_eq] at hu
  rw [hi]
  generalize s.nextInstr = i at hu
  cases i with
  | jmp n => cases hu; exact ⟨rfl, nextFetch_toNat _⟩
  | jrp n => cases hu; exact pc_and_nextFetch_of_adds rfl
  | cmp n =>
    cases hu
    by_cases hneg : s.acc.toInt < 0
    · simp only [if_pos hneg]
      exact pc_and_nextFetch_of_skips (if_pos ((isneg_iff_toInt s.acc).mpr hneg))
    · simp only [if_neg hneg]
      exact pc_and_nextFetch_of_stays (if_neg (mt (isneg_iff_toInt s.acc).mp hneg))
  | _ => cases hu; exact pc_and_nextFetch_of_stays rfl

/-- Settles O42: a loop counts up to its budget at most, and ends only where its test fails. -/
theorem runEndsHaltedOrWithTheBudgetUsed : Obligations.RunEndsHaltedOrWithTheBudgetUsed := by
  intro b patience s t h
  refine ⟨?_, fun hb => runLoop_cycles_le_budget hb (Nat.zero_le _) h, ?_⟩
  · cases ht : t.halted with
    | true => exact .inl rfl
    | false => exact .inr ⟨rfl, cycles_eq_budget_of_run h ht⟩
  · simpa using runLoop_cycles_le_patience h

/-- Settles O17: the address is the one fetch/advance gives, and the execute phase always answers. -/
theorem stepRunsTheDecodedInstruction : Obligations.StepRunsTheDecodedInstruction := by
  intro s i hh hc hi
  have hnext : s.nextInstr = i := by rw [← hi, ← nextFetch_toNat]; rfl
  have hat : ({ s with pc := BitVec.ofNat 32 ((s.pc.toNat + 1) % 32) } : State) = s.atFetch := by
    rw [← nextFetch_toNat, BitVec.ofNat_toNat]
    rfl
  obtain ⟨u, hu, -⟩ := exec_cases i s.atFetch
  rw [hat, hu]
  exact step_of_exec hh hc (by rw [hnext, hu])

/-- Settles O18: neither the step nor the loop issues a cycle. -/
theorem haltedCoreExecutesNoCycle : Obligations.HaltedCoreExecutesNoCycle := by
  intro s b patience
  refine ⟨fun hh => ⟨by rw [step, issueCycle, if_pos hh], run_of_halted hh b patience⟩, ?_⟩
  exact runLoop_of_stops ((runContinues_eq_false_iff _ _).mpr (.inr ⟨rfl, Nat.zero_le _⟩)) patience

end Sys2Proof.Machine

/-! ### Laws of the jumps: what a write of `PC` leaves unchanged, and the fetch after a sum -/

namespace Sys2Proof.Machine

theorem State.sameStore_setPc (s : State) (v : Word) : s.sameStore (s.setPc v) := fun _ => rfl

theorem State.sameStatus_setPc (s : State) (v : Word) : s.sameStatus (s.setPc v) := ⟨rfl, rfl, rfl, rfl⟩

/-- The wrap of a sum in `PC` does not show in the next fetch address, because 32 divides 2^32 (D2, D3; logs 2 and 3). -/
theorem nextFetch_toNat_eq_emod_of_pc_add {t : State} {v w : Word} (h : t.pc = v + w) :
    (t.nextFetch.toNat : Int) = (v.toInt + w.toInt + 1) % 32 := by
  have hwrap : (v.toInt + w.toInt).bmod (2 ^ 32) % 2 ^ 32 = (v.toInt + w.toInt) % 2 ^ 32 := Int.bmod_emod
  rw [nextFetch_toNat_eq_emod, h, BitVec.toInt_add]
  omega

/-! ### The statements of 41_jumps.md -/

/-- Settles O23: the execute phase of JMP is a write of the addressed word to `PC`. -/
theorem jmpWritesTheMemoryWordToPc : Obligations.JmpWritesTheMemoryWordToPc := by
  refine ⟨fun _ => decode_of_and_opcodeMask 0, fun n s => ?_⟩
  exact ⟨s.setPc (s.memRead n), exec_eq (.jmp n) s, rfl, nextFetch_toNat _, rfl, s.sameStore_setPc _,
    s.sameStatus_setPc _⟩

/-- Settles O24: the execute phase of JRP is a write of the wrapped sum to `PC`; in range, the sum is its own balanced
remainder. -/
theorem jrpAddsTheMemoryWordToPc : Obligations.JrpAddsTheMemoryWordToPc := by
  refine ⟨fun _ => decode_of_and_opcodeMask 1, fun n s => ?_⟩
  have hexact (hlow : -2 ^ 31 ≤ s.pc.toInt + (s.memRead n).toInt) (hhigh : s.pc.toInt + (s.memRead n).toInt < 2 ^ 31) :
      (s.pc + s.memRead n).toInt = s.pc.toInt + (s.memRead n).toInt := by
    rw [BitVec.toInt_add]
    exact Int.bmod_eq_of_le hlow hhigh
  exact ⟨s.setPc (s.pc + s.memRead n), exec_eq (.jrp n) s, BitVec.toNat_add _ _, hexact,
    nextFetch_toNat_eq_emod_of_pc_add rfl, rfl, s.sameStore_setPc _, s.sameStatus_setPc _⟩

end Sys2Proof.Machine

/-! ### Laws of the load and the store: what a write of `ACC` or of one word leaves unchanged -/

namespace Sys2Proof.Machine

theorem State.sameStore_setAcc (s : State) (v : Word) : s.sameStore (s.setAcc v) := fun _ => rfl

theorem State.sameStatus_setAcc (s : State) (v : Word) : s.sameStatus (s.setAcc v) := ⟨rfl, rfl, rfl, rfl⟩

theorem State.sameStatus_memWrite (s : State) (a : Addr) (v : Word) : s.sameStatus (s.memWrite a v) :=
  ⟨rfl, rfl, rfl, rfl⟩

/-! ### The statements of 42_load_store.md -/

/-- Settles O25: the execute phase of LDN is a write of the negated word to `ACC`; 0x80000000 is its own negative. -/
theorem ldnLoadsTheNegatedWord : Obligations.LdnLoadsTheNegatedWord := by
  refine ⟨fun _ => decode_of_and_opcodeMask 2, fun n s => ?_⟩
  have hwrap (h : s.memRead n = 0x80000000) : -s.memRead n = 0x80000000 := by
    rw [h]
    decide
  exact ⟨s.setAcc (-s.memRead n), exec_eq (.ldn n) s, BitVec.toNat_neg _, hwrap, rfl, s.sameStore_setAcc _,
    s.sameStatus_setAcc _⟩

/-- Settles O26: the execute phase of STO is a write of `ACC` to the addressed word, so read after write gives every word
of the Store. -/
theorem stoWritesTheAccumulatorToOneWord : Obligations.StoWritesTheAccumulatorToOneWord := by
  refine ⟨fun _ => decode_of_and_opcodeMask 3, fun n s => ?_⟩
  have hread (a : Nat) : (s.memWrite n s.acc).store.read a = if a = n.toNat then s.acc else s.store.read a :=
    Memory.read_write s.store n.toNat a s.acc
  exact ⟨s.memWrite n s.acc, exec_eq (.sto n) s, n.isLt, (hread _).trans (if_pos rfl),
    fun a ha => (hread a).trans (if_neg ha), rfl, rfl, s.sameStatus_memWrite _ _⟩

end Sys2Proof.Machine

/-! ### Laws of the 32-bit arithmetic (R142) -/

namespace Sys2Proof.Machine

/-- The negative of a word by its unsigned value (R142 law 1). -/
theorem neg32_toNat (a : Word) : (neg32 a).toNat = (2 ^ 32 - a.toNat) % 2 ^ 32 := BitVec.toNat_neg a

theorem neg32_neg32 (a : Word) : neg32 (neg32 a) = a := BitVec.neg_neg

/-- A word is its own negative when twice its unsigned value is 0 modulo 2^32 (R142 law 1). -/
theorem neg32_eq_self_iff (a : Word) : neg32 a = a ↔ a = 0 ∨ a = 0x80000000 := by
  rw [← BitVec.toNat_inj, neg32_toNat, ← BitVec.toNat_inj, ← BitVec.toNat_inj]
  change _ ↔ a.toNat = 0 ∨ a.toNat = 2 ^ 31
  omega

/-- 0x80000000 is the only word whose signed value has no negative (R142 law 1). -/
theorem neg32_toInt {a : Word} (h : a ≠ 0x80000000) : (neg32 a).toInt = -a.toInt :=
  BitVec.toInt_neg_of_ne_intMin h

/-- The unsigned sum modulo 2^32 (R142 law 2). -/
theorem add32_toNat (a b : Word) : (add32 a b).toNat = (a.toNat + b.toNat) % 2 ^ 32 := BitVec.toNat_add a b

/-- The signed sum is congruent to the same word modulo 2^32 (R142 law 2). -/
theorem add32_toInt_congr (a b : Word) : ((add32 a b).toInt - (a.toInt + b.toInt)) % 2 ^ 32 = 0 := by
  rw [add32, BitVec.toInt_add]
  exact Int.emod_eq_zero_of_dvd Int.dvd_bmod_sub_self

/-- The source's two-step form of the subtraction (R140, R142 law 3). -/
theorem sub32_eq_add32_neg32 (a b : Word) : sub32 a b = add32 a (neg32 b) := BitVec.sub_eq_add_neg a b

/-- The unsigned difference modulo 2^32 (R142 law 3). -/
theorem sub32_toNat (a b : Word) : ((sub32 a b).toNat : Int) = ((a.toNat : Int) - b.toNat) % 2 ^ 32 := by
  rw [sub32, BitVec.toNat_sub]
  omega

/-- The signed difference is the one value in range that is congruent to the integer difference modulo 2^32 (R142 law 4). -/
theorem sub32_toInt_of_congr {a b : Word} {d : Int} (hlow : -2 ^ 31 ≤ d) (hhigh : d < 2 ^ 31)
    (hcongr : 2 ^ 32 ∣ d - (a.toInt - b.toInt)) : (sub32 a b).toInt = d := by
  rw [sub32, BitVec.toInt_sub]
  exact (Int.bmod_eq_iff (by decide)).mpr ⟨hlow, hhigh, hcongr⟩

/-- Signed overflow gives the integer difference plus or minus 2^32 (R142 law 4). -/
theorem sub32_toInt_cases (a b : Word) :
    (-2 ^ 31 ≤ a.toInt - b.toInt ∧ a.toInt - b.toInt < 2 ^ 31 → (sub32 a b).toInt = a.toInt - b.toInt) ∧
    (a.toInt - b.toInt < -2 ^ 31 → (sub32 a b).toInt = a.toInt - b.toInt + 2 ^ 32) ∧
    (2 ^ 31 ≤ a.toInt - b.toInt → (sub32 a b).toInt = a.toInt - b.toInt - 2 ^ 32) := by
  have halow := a.le_toInt
  have hahigh := a.toInt_lt
  have hblow := b.le_toInt
  have hbhigh := b.toInt_lt
  refine ⟨fun ⟨hlow, hhigh⟩ => ?_, fun hunder => ?_, fun hover => ?_⟩ <;>
    apply sub32_toInt_of_congr <;> omega

/-! ### Laws of SUB2: SUB's execute phase under a code of its own (R141) -/

/-- Both codes have one execute phase (R141). -/
theorem exec_sub2_eq_exec_sub (n : Addr) (s : State) : exec (.sub2 n) s = exec (.sub n) s :=
  (exec_eq (.sub2 n) s).trans (exec_eq (.sub n) s).symm

/-- The lowest bit of the code is bit 13 of the word (R70, R79); a finite question, 8 codes by 32 operands. -/
theorem packFields_xor_one : ∀ (c : BitVec 3) (n : Addr), packFields (c ^^^ 1) n = packFields c n ^^^ 0x2000 := by
  decide

/-! ### The statements of 43_subtract.md -/

/-- Settles O12: a lemma per law, over the unsigned values for the bit patterns and over the signed ones for overflow. -/
theorem arithmeticWrapsModuloTwoToThe32 : Obligations.ArithmeticWrapsModuloTwoToThe32 := by
  intro a b
  exact ⟨⟨neg32_toNat a, neg32_neg32 a, neg32_eq_self_iff a, fun _ => neg32_toInt⟩,
    ⟨add32_toNat a b, add32_toInt_congr a b⟩,
    ⟨sub32_eq_add32_neg32 a b, sub32_toNat a b⟩,
    sub32_toInt_cases a b,
    isneg_iff_toInt a, rfl, rfl⟩

/-- Settles O27: the execute phase of SUB is a write of the difference to `ACC`. -/
theorem subSubtractsTheMemoryWord : Obligations.SubSubtractsTheMemoryWord := by
  refine ⟨fun _ => decode_of_and_opcodeMask 4, fun n s => ?_⟩
  exact ⟨s.setAcc (sub32 s.acc (s.memRead n)), exec_eq (.sub n) s, sub32_toNat _ _, sub32_eq_add32_neg32 _ _, rfl,
    s.sameStore_setAcc _, s.sameStatus_setAcc _⟩

/-- Settles O28: the two execute phases are one, so what O27 says of SUB holds of SUB2; the codes 4 and 5 differ in
their lowest bit. -/
theorem sub2BehavesExactlyLikeSub : Obligations.Sub2BehavesExactlyLikeSub := by
  refine ⟨fun _ => decode_of_and_opcodeMask 5, fun n s => ?_, packFields_xor_one 4,
    fun n => ⟨parseMnemonic_mnemonicOf (.sub2 n), rfl⟩⟩
  obtain ⟨t, hexec, hacc, -, hframe⟩ := subSubtractsTheMemoryWord.2 n s
  exact ⟨exec_sub2_eq_exec_sub n s, t, (exec_sub2_eq_exec_sub n s).trans hexec, hacc, hframe⟩

end Sys2Proof.Machine

/-! ### Laws of CMP: the fetch after a skip, and the two branches of the execute phase -/

namespace Sys2Proof.Machine

/-- The fetch two past the CMP; the wrap of the increment does not show in it, because 32 divides 2^32 (D2, D3; logs 2
and 3). -/
theorem nextFetch_toNat_of_pc_add_one {s t : State} (h : t.pc = s.pc + 1) :
    t.nextFetch.toNat = (s.pc.toNat + 2) % 32 := by
  have hpc : t.pc.toNat = (s.pc.toNat + 1) % 2 ^ 32 := by
    rw [h]
    exact BitVec.toNat_add s.pc 1
  rw [nextFetch_toNat, hpc]
  omega

theorem exec_cmp_of_neg {s : State} (hneg : s.acc.toInt < 0) (n : Addr) :
    exec (.cmp n) s = .next (s.setPc (s.pc + 1)) := by
  simp only [exec_eq, (isneg_iff_toInt s.acc).mpr hneg, if_true]

theorem exec_cmp_of_nonneg {s : State} (hnonneg : ¬ s.acc.toInt < 0) (n : Addr) : exec (.cmp n) s = .next s := by
  simp only [exec_eq, if_neg (mt (isneg_iff_toInt s.acc).mp hnonneg)]
  rfl

/-! ### The statements of 44_compare.md -/

/-- Settles O29: by the sign of `ACC`, the execute phase of CMP is a write of the incremented `PC` or nothing. -/
theorem cmpSkipsExactlyWhenNegative : Obligations.CmpSkipsExactlyWhenNegative := by
  refine ⟨fun _ => decode_of_and_opcodeMask 6, fun n s => ?_⟩
  by_cases hneg : s.acc.toInt < 0
  · refine ⟨s.setPc (s.pc + 1), exec_cmp_of_neg hneg n, ?_, rfl, s.sameStore_setPc _, s.sameStatus_setPc _⟩
    rw [if_pos hneg]
    exact ⟨BitVec.toNat_add s.pc 1, nextFetch_toNat_of_pc_add_one rfl⟩
  · exact ⟨s, exec_cmp_of_nonneg hneg n, by rw [if_neg hneg], rfl, fun _ => rfl, ⟨rfl, rfl, rfl, rfl⟩⟩

end Sys2Proof.Machine

/-! ### Laws of STP: what the halt leaves unchanged, and the core it leaves -/

namespace Sys2Proof.Machine

theorem State.sameStore_halt (s : State) : s.sameStore s.halt := fun _ => rfl

/-- A halted core issues no cycle (D7, log 7). -/
theorem step_of_halted {s : State} (hh : s.halted = true) : step s = .fault .halted := by
  rw [step, issueCycle, if_pos hh]

/-! ### The statements of 45_stop.md -/

/-- Settles O30: the execute phase of STP is the halt, and a halted core has no step. -/
theorem stpHaltsAndChangesNothingElse : Obligations.StpHaltsAndChangesNothingElse := by
  refine ⟨fun _ => decode_of_and_opcodeMask 7, fun n s => ?_⟩
  exact ⟨s.halt, exec_eq (.stp n) s, s.halt_halted, rfl, s.halt_faultAddr, s.halt_cycles, s.halt_acc, s.halt_pc,
    s.sameStore_halt, step_of_halted s.halt_halted⟩

end Sys2Proof.Machine

/-! ### Laws of the run-time errors: what each records, and what a raise leaves unchanged -/

namespace Sys2Proof.Machine

@[simp] theorem RunError.code_cause_decodeAccess (addr : Word) : (RunError.decodeAccess addr).cause.code = 2 := rfl
@[simp] theorem RunError.code_cause_invariantViolation : RunError.invariantViolation.cause.code = 3 := rfl
@[simp] theorem RunError.record_decodeAccess (addr old : Word) : (RunError.decodeAccess addr).record old = addr := rfl
@[simp] theorem RunError.record_invariantViolation (old : Word) : RunError.invariantViolation.record old = old := rfl

theorem State.sameStore_raise (s : State) (e : RunError) : s.sameStore (s.raise e) := fun _ => rfl

/-! ### The statements of 60_exceptions.md -/

/-- Settles O33: the two status registers hold what the error records, and every other field but `HALTED` is framed. -/
theorem raiseWritesOnlyTheHaltRegisters : Obligations.RaiseWritesOnlyTheHaltRegisters := by
  intro s addr e
  exact ⟨RunError.code_cause_decodeAccess addr, RunError.record_decodeAccess addr s.faultAddr,
    RunError.code_cause_invariantViolation, RunError.record_invariantViolation s.faultAddr,
    s.raise_halted e, s.raise_acc e, s.raise_pc e, s.sameStore_raise e, s.raise_cycles e⟩

end Sys2Proof.Machine

/-! ### Laws of bounded runs, and of the first fetch after reset -/

namespace Sys2Proof.Machine

/-- A core that is not halted and whose count has room completes a step: no instruction faults or is refused. -/
theorem exists_step_eq_next {s : State} (hh : s.halted = false) (hc : s.cycles + 1 < 2 ^ Config.cycleWidth) :
    ∃ t, step s = .next t := by
  obtain ⟨u, hu, -⟩ := exec_cases s.nextInstr s.atFetch
  exact ⟨u.countCycle, step_of_exec hh hc hu⟩

/-- A bounded loop ends when it is watched for as many cycles as its budget has left: each turn completes, because a budget
is below 2^32, and uses one of them. -/
theorem exists_runLoop_eq_ended {maxCycles : Word} {patience : Nat} {s : State}
    (h : maxCycles.toNat ≤ s.cycles + patience) : ∃ t, runLoop ⟨true, maxCycles⟩ patience s = .ended t := by
  induction patience generalizing s with
  | zero => exact ⟨s, runLoop_of_stops ((runContinues_eq_false_iff _ s).mpr (.inr ⟨rfl, h⟩)) 0⟩
  | succ patience ih =>
    cases hc : runContinues ⟨true, maxCycles⟩ s with
    | false => exact ⟨s, runLoop_of_stops hc (patience + 1)⟩
    | true =>
      obtain ⟨hh, hbudget⟩ := (runContinues_iff _ s).mp hc
      have hroom : s.cycles + 1 < 2 ^ Config.cycleWidth := Nat.lt_of_le_of_lt (hbudget rfl) maxCycles.isLt
      obtain ⟨u, hu⟩ := exists_step_eq_next hh hroom
      obtain ⟨t, ht⟩ := ih (s := u) (by rw [step_cycles hu]; omega)
      exact ⟨t, by rw [runLoop_of_continues hc hu, ht]⟩

/-- The first instruction after reset and a load is the image's word at address 1 (R192). -/
theorem nextInstr_reset_loadImage (img : Image) : (State.reset.loadImage img).nextInstr = decode img[1] :=
  congrArg decode (Memory.read_ofImage img (by decide : 1 < 32))

/-- It executes with `PC` = 1 (R192). -/
theorem atFetch_reset_loadImage (img : Image) :
    (State.reset.loadImage img).atFetch = (State.reset.loadImage img).setPc 1 := rfl

/-- The mask of bits 4..0 is the remainder of division by 32. -/
theorem and_operandMask_toNat (w : Word) : (w &&& 0x1F).toNat = w.toNat % 32 := by
  rw [BitVec.toNat_and]
  exact Nat.and_two_pow_sub_one_eq_mod w.toNat 5

/-- The next fetch is at address 0 only one past an address that is 31 modulo 32 (R101, R192). -/
theorem atFetch_pc_eq_zero_iff (s : State) : s.atFetch.pc = 0 ↔ s.pc &&& 0x1F = 31 := by
  have hfetch : s.atFetch.pc = 0 ↔ (s.pc.toNat + 1) % 32 = 0 := by
    rw [← BitVec.toNat_inj, atFetch_pc_toNat, nextFetch_toNat]
    rfl
  have hlow : s.pc &&& 0x1F = 31 ↔ s.pc.toNat % 32 = 31 := by
    rw [← BitVec.toNat_inj, and_operandMask_toNat]
    rfl
  rw [hfetch, hlow]
  omega

/-! ### The statements of 70_reset_and_hazards.md -/

/-- Settles O43: the run is watched for its whole budget, so its loop ends, and there the halt or the budget ended it. -/
theorem boundedRunAlwaysEnds : Obligations.BoundedRunAlwaysEnds := by
  intro s maxCycles
  obtain ⟨t, ht⟩ := exists_runLoop_eq_ended (s := s.startRun) (Nat.le_add_left maxCycles.toNat 0)
  exact ⟨t, ht, runLoop_cycles_le_budget rfl (Nat.zero_le _) ht, fun hh => (cycles_eq_budget_of_run ht hh).2⟩

/-- Settles O38: fetch/advance leaves 1 in the `PC` that reset cleared, and a loaded Store reads as its image. -/
theorem firstInstructionExecutedIsAtAddressOne : Obligations.FirstInstructionExecutedIsAtAddressOne := by
  refine ⟨fun img => ?_, fun s => by rw [fetchAdvance_pcMod]; exact atFetch_pc_eq_zero_iff s⟩
  obtain ⟨t, ht, -⟩ := exec_cases (decode img[1]) ((State.reset.loadImage img).setPc 1)
  refine ⟨t, ht, step_of_exec rfl (by decide : 0 + 1 < 2 ^ Config.cycleWidth) ?_⟩
  rw [nextInstr_reset_loadImage, atFetch_reset_loadImage, ht]

/-- Settles O36: reset answers the reset state, whose Store lists no cell. -/
theorem resetClearsEveryElement : Obligations.ResetClearsEveryElement :=
  ⟨fun _ => rfl, rfl, rfl, rfl, rfl, rfl, rfl, fun a => Memory.read_nil a.toNat⟩

/-- Settles O39: the empty Store is canonical, and no cause is recorded. -/
theorem resetMeetsTheInvariant : Obligations.ResetMeetsTheInvariant := ⟨State.inv_reset, .inl rfl⟩

end Sys2Proof.Machine

/-! ### Laws of fetch/advance under the two readings of `PC_MOD` (R101; D2, log 2) -/

namespace Sys2Proof.Machine

/-- Keeping the low five bits of a word is its non-negative remainder, whatever the word's sign. -/
theorem low5_toInt (w : Word) : (low5 w).toInt = w.toInt % 32 := by
  have hnat : (low5 w).toNat = w.toNat % 32 := low5_toNat w
  rw [BitVec.toInt_eq_toNat_of_lt (by omega), hnat, BitVec.toInt_eq_toNat_cond]
  split <;> omega

/-- `trunc` leaves in `PC` the remainder with the sign of the dividend: it always fits in a word. -/
theorem reducePc_trunc_toInt (pc : Word) : (reducePc .trunc pc).toInt = (pc + 1).toInt.tmod 32 := by
  have hlow : -32 < (pc + 1).toInt.tmod 32 := Int.lt_tmod_of_pos _ (by decide)
  have hhigh : (pc + 1).toInt.tmod 32 < 32 := Int.tmod_lt_of_pos _ (by decide)
  have hfits : (BitVec.ofInt 32 ((pc + 1).toInt.tmod 32)).toInt = (pc + 1).toInt.tmod 32 :=
    BitVec.toInt_ofInt_eq_self (by decide) (by omega) (by omega)
  exact hfits

/-- Settles O14: `trunc` is `euclid`'s remainder, less 32 exactly where the dividend is negative and no multiple of 32. -/
theorem pcModReadingsDifferOnlyBelowZero : Obligations.PcModReadingsDifferOnlyBelowZero := by
  refine fun pc => ⟨fun hagree => BitVec.eq_of_toInt_eq ?_, fun ⟨hneg, hmul⟩ => ?_⟩
  · have heuclid : (reducePc .euclid pc).toInt = (pc + 1).toInt % 32 := low5_toInt (pc + 1)
    rw [reducePc_trunc_toInt, heuclid, Int.tmod_eq_emod, if_pos (hagree.imp_right Int.dvd_of_emod_eq_zero)]
    exact sub_zero _
  · have htrunc : (pc + 1).toInt.tmod 32 = (pc + 1).toInt % 32 - 32 := by
      rw [Int.tmod_eq_emod, if_neg (by omega)]
      rfl
    rw [reducePc_trunc_toInt]
    exact ⟨by omega, tmod_32_range hneg hmul⟩

end Sys2Proof.Machine
